-- ==== Sys2Proof/Word.lean ====
section
/-! DEFINITION. The widths of the RSU's data: bytes, 16-bit quantities, addresses and host transaction words
(spec/00_scope.md R5, R6; spec/30_encoding.md R60). Every value is unsigned (R6). -/

namespace Sys2Proof

/-- `DATA_BITS` = 8: the unit of every access (R5, R49). -/
abbrev Byte := BitVec 8

/-- A 16-bit quantity: a declared dimension (R25) or a device color value (R29). -/
abbrev Word := BitVec 16

/-- `ADDR_BITS` = 16: a host-space byte address (R40). -/
abbrev Addr := BitVec 16

/-- An HT word: one host transaction, 25 bits (R60, R61). -/
abbrev TransactionWord := BitVec 25

/-- A screen index as commands carry it, `SCR`, 3 bits: every value is a screen (R65). -/
abbrev Screen := BitVec 3

/-- One byte of a 16-bit quantity: `hi(v) = v[15:8]` or `lo(v) = v[7:0]` (R6). -/
inductive Half where
  | hi
  | lo
deriving DecidableEq, Repr

end Sys2Proof
end

