-- ==== Sys2Proof/Config.lean ====
section
/-! DEFINITION. What the spec fixes once for the block (the counts of spec/00_scope.md R5 that do not depend on a
screen), and the one free value: the contents of the frame memories after a reset. -/

namespace Sys2Proof

/-- The byte that a reset leaves at a host address of SRC or PB: "each byte is an independent arbitrary value"
(R21, R22, R150; spec/93_implementation_defined.md U1, U2, "any value"). `epoch` counts the resets, so each reset
draws anew. It has no body: nothing can be proved of what it is (notes/assumptions/4.md, safe). -/
opaque Config.resetByte (epoch addr : Nat) : Byte

/-- `NSCREENS` (R5). -/
def Config.nScreens : Nat := 8

/-- `H`: the rows of every screen (R5). -/
def Config.height : Nat := 32

/-- `NPLANES` (R5). -/
def Config.nPlanes : Nat := 4

/-- `SRC_COLS`: the columns of the staging frame (R5). -/
def Config.srcCols : Nat := 128

/-- `SEG_W`: the columns of a segment (R5). -/
def Config.segWidth : Nat := 16

/-- The first host address past SRC, PB0 and PB1..PB7, the storage that is memory (R41). -/
def Config.storageEnd : Nat := 0x1580

end Sys2Proof
end

