-- ==== Sys2Proof/Syntax.lean ====
section
/-! DEFINITION. The instructions: one constructor per row of spec/opcode_table.json. -/

namespace Sys2Proof

/-- The two host transactions and the two commands (R2, R60). Operands are the encodings' own fields. -/
inductive Instr where
  /-- `RD a` (R80). `data` is the word's DATA field, which the RSU ignores (R61). -/
  | rd (addr : Addr) (data : Byte)
  /-- `WR a, d` (R81). -/
  | wr (addr : Addr) (data : Byte)
  /-- `NOP`, the command byte 0x00 (R91). -/
  | nop
  /-- `RASTER s`, the command bytes 0x10 to 0x17 (R92). -/
  | raster (scr : Screen)
deriving DecidableEq, Repr

end Sys2Proof
end

