-- ==== Sys2Proof/WellFormed.lean ====
section
/-! DEFINITION. The instructions in the form the assembler writes. It is a condition on what is WRITTEN, never on what
is decoded or executed: no HT word is illegal (R62), so `decode` and `exec` take every instruction. -/

namespace Sys2Proof

/-- "For `RD`, ignored by the RSU; the assembler writes 0" (R61): an `RD` with another DATA is not the assembler's.
Every other field admits every value (R65). -/
def Instr.wf : Instr → Bool
  | .rd _ data => data == 0#8
  | .wr _ _ => true
  | .nop => true
  | .raster _ => true

end Sys2Proof
end

