-- ==== Sys2Proof/Decode.lean ====
section
/-! DEFINITION. Decoding and encoding of host transaction words and command bytes (spec/30_encoding.md). -/

namespace Sys2Proof

/-- The two formats: "no other format or length exists" (R60). -/
inductive TableWord where
  /-- HT, a host transaction word (R61). -/
  | ht (tw : TransactionWord)
  /-- CMD8, a command byte (R63). -/
  | cmd8 (d : Byte)
deriving DecidableEq, Repr

/-- What the decoder refuses, by name. -/
inductive DecodeRefusal where
  /-- A CMD8 byte of no opcode-table row, 0x01–0x0F or 0x18–0xFF. Raised by `decode`; safe: the machine does not stop
  on it, a `WR` of such a byte to CMD reports ILLEGAL_CMD (R66, R95). -/
  | illegalCmd (d : Byte)
  /-- A number too large for its format's width. Raised by `tableWord`; safe: it is no word of the machine (R60). -/
  | tooWide (w : Nat)
deriving DecidableEq, Repr

/-- What a byte written to CMD runs: one of three things (R90). -/
inductive Cmd where
  | nop
  | raster (scr : Screen)
  | illegal
deriving DecidableEq, Repr

/-- The CMD8 decoder, total (R64, R90): `OP` and `RSV` are `d[7:3]`, `SCR` is `d[2:0]` (R63). -/
def decodeCmd8 (d : Byte) : Cmd :=
  if d = 0x00#8 then .nop
  else if d.extractLsb' 3 5 = 0b00010#5 then .raster (d.extractLsb' 0 3)
  else .illegal

/-- The HT decoder, total: "Every 25-bit word is either `RD ADDR` (W = 0) or `WR ADDR, DATA` (W = 1)" (R62). -/
def decodeHT (tw : TransactionWord) : Instr :=
  if tw.extractLsb' 24 1 = 1#1 then .wr (tw.extractLsb' 8 16) (tw.extractLsb' 0 8)
  else .rd (tw.extractLsb' 8 16) (tw.extractLsb' 0 8)

/-- The instruction of a word of either format, or the refusal's name. -/
def decode : TableWord → Except DecodeRefusal Instr
  | .ht tw => .ok (decodeHT tw)
  | .cmd8 d =>
    match decodeCmd8 d with
    | .nop => .ok .nop
    | .raster scr => .ok (.raster scr)
    | .illegal => .error (.illegalCmd d)

/-- An HT word from its fields: `TW = W·2^24 + ADDR·2^8 + DATA` (R61). -/
def encodeHT (w : BitVec 1) (addr : Addr) (data : Byte) : TransactionWord :=
  w ++ addr ++ data

/-- The encoder, from the same fields (R61, R63, R64). -/
def encode : Instr → TableWord
  | .rd addr data => .ht (encodeHT 0#1 addr data)
  | .wr addr data => .ht (encodeHT 1#1 addr data)
  | .nop => .cmd8 0x00#8
  | .raster scr => .cmd8 (0b00010#5 ++ scr)

/-- The address of the command register CMD (R41). -/
def cmdAddr : Addr := 0x1900#16

/-- The transaction by which the host presents a word: an HT word is one, and a CMD8 byte is "the DATA field of an HT
write to address 0x1900" (R60). -/
def TableWord.transaction : TableWord → TransactionWord
  | .ht tw => tw
  | .cmd8 d => encodeHT 1#1 cmdAddr d

/-- The transaction by which the host issues an instruction (R60, R69). -/
def transactionOf (i : Instr) : TransactionWord :=
  (encode i).transaction

/-- The word of an opcode-table row as the table numbers its bits: a row of 8 bits is a CMD8 byte, a longer one an HT
word (R60; notes/assumptions/9.md). -/
def tableWord (nbits w : Nat) : Except DecodeRefusal TableWord :=
  if nbits ≤ 8 then
    if w < 2 ^ 8 then .ok (.cmd8 (BitVec.ofNat 8 w)) else .error (.tooWide w)
  else
    if w < 2 ^ 25 then .ok (.ht (BitVec.ofNat 25 w)) else .error (.tooWide w)

/-- The instruction the decoder reads from an opcode-table row's bits. -/
def decodeTableWord (nbits w : Nat) : Option Instr :=
  match tableWord nbits w with
  | .ok t => (decode t).toOption
  | .error _ => none

/-- The transaction that presents an opcode-table row's bits to the machine. A number too large for its format is cut to
the format's width. -/
def tableTransaction (nbits w : Nat) : TransactionWord :=
  if nbits ≤ 8 then (TableWord.cmd8 (BitVec.ofNat 8 w)).transaction
  else (TableWord.ht (BitVec.ofNat 25 w)).transaction

end Sys2Proof
end

