-- ==== Sys2Proof/Machine/State.lean ====
section
/-! DEFINITION. The state of the RSU (spec/10_state.md R20 to R29), the host's side of the port, the reasons a step can
stop, and reset (spec/70_reset_and_hazards.md R150). -/

namespace Sys2Proof.Machine

/-- "There is no fault outcome and no stuck outcome" (R82), and there are no traps (R130): no constructor. Safe or unsafe
does not arise; errors are values of STATUS.CODE (notes/assumptions/14.md). -/
inductive Fault where
deriving DecidableEq, Repr

/-- Why the model gives an instruction no meaning. -/
inductive Refusal where
  /-- Would be raised by an arm of `exec` whose instruction has no meaning yet; safe. No arm raises it. -/
  | notModelled (mnemonic : String)
deriving DecidableEq, Repr

/-- `STATUS.CODE`: "result of the last RASTER or illegal command"; "Value 3 is never produced" (R27, R131). A state with
code 3 cannot be written (spec/93_implementation_defined.md U3; notes/assumptions/6.md). -/
inductive Code where
  | ok
  | sizeMismatch
  | illegalCmd
deriving DecidableEq, Repr

/-- STATUS: its two stored fields (R27). Its reserved bits are no storage: they always read 0. -/
structure Status where
  code : Code
  lastScreen : Screen
deriving DecidableEq, Repr

/-- What reaches the port from outside: a host transaction (R82), or the reset event between two of them (R150, R151). -/
inductive HostEvent where
  | transaction (tw : TransactionWord)
  | reset
deriving DecidableEq, Repr

/-- The frame memories SRC and PB[0..7], as (host address, byte) pairs, addresses strictly rising. "A host address is the
location itself" (R55). An unlisted address holds no value of its own: `State.stored` says what it reads as. -/
abbrev Memory := List Host.Cell

/-- The canonical form: addresses strictly rising, and every one an address of SRC or PB (R41). No listed byte equals
what an unlisted address reads as, since that is no byte of the list. -/
abbrev Memory.wf (m : Memory) : Prop :=
  m.Pairwise (fun x y => x.1 < y.1) ∧ ∀ c ∈ m, c.1 < Config.storageEnd

/-- The spec's state is the fields `mem` to `status`: "The RSU's state is exactly this tuple" (R20). The last three fields
are the model's own, the two sides of the port and a counter (notes/assumptions/1.md, 3.md, 5.md). -/
structure State where
  /-- SRC and PB[0..7] (R21, R22). -/
  mem : Memory
  /-- PCT[0..23] (R24). -/
  pct : Vector Byte 24
  /-- ACT_W (R25). -/
  actW : Word
  /-- ACT_H (R25). -/
  actH : Word
  /-- EXP_W (R26). -/
  expW : Byte
  /-- EXP_H (R26). -/
  expH : Byte
  /-- STATUS (R27). -/
  status : Status
  /-- What the host has issued and the RSU has not yet served, oldest first. -/
  pending : List HostEvent
  /-- The bytes returned by the `RD`s served so far, oldest first (R13). -/
  returned : List Byte
  /-- How many resets have been taken since the first: it selects the draws of SRC and PB. -/
  epoch : Nat
deriving DecidableEq, Repr

/-- Right after reset (R150): PCT, ACT, EXP and STATUS are 0; nothing of SRC and PB is listed, so each of their bytes is
a draw; the host has issued nothing and received nothing. -/
def State.reset : State :=
  { mem := [], pct := Vector.replicate 24 0x00#8, actW := 0#16, actH := 0#16, expW := 0#8, expH := 0#8,
    status := { code := .ok, lastScreen := 0#3 }, pending := [], returned := [], epoch := 0 }

end Sys2Proof.Machine
end

