-- ==== Sys2Proof/Machine/Ops.lean ====
section
/-! DEFINITION. The shared operations over the state: reading and writing the frame memories, the port's two sides,
reporting an error (the RSU's whole error model, R130), and taking a reset. -/

namespace Sys2Proof.Machine

/-- The byte listed at an address, if one is. -/
def Memory.read? : Memory → Nat → Option Byte
  | [], _ => none
  | (k, v) :: rest, a => if k = a then some v else Memory.read? rest a

/-- The cells of a block of bytes from an address up. -/
def Memory.cells : Nat → List Byte → Memory
  | _, [] => []
  | a, b :: bs => (a, b) :: Memory.cells (a + 1) bs

/-- Write a block of bytes from an address up; every other address keeps its byte. -/
def Memory.writeBlock (m : Memory) (a : Nat) (bs : List Byte) : Memory :=
  m.filter (fun c => c.1 < a) ++ Memory.cells a bs ++ m.filter (fun c => a + bs.length ≤ c.1)

/-- The byte of SRC or PB at a host address: the listed one, or else what the last reset drew there (R21, R22; U1, U2;
notes/assumptions/4.md). -/
def State.stored (s : State) (a : Nat) : Byte :=
  (s.mem.read? a).getD (Config.resetByte s.epoch a)

/-- Store a block of bytes in the frame memories. -/
def State.storeBlock (s : State) (a : Nat) (bs : List Byte) : State :=
  { s with mem := s.mem.writeBlock a bs }

/-- Store one byte in the frame memories. -/
def State.storeByte (s : State) (a : Nat) (b : Byte) : State :=
  s.storeBlock a [b]

/-- Write one PCT register. -/
def State.setPct (s : State) (i : Fin 24) (b : Byte) : State :=
  { s with pct := s.pct.set i b }

/-- Write ACT_W. -/
def State.setActW (s : State) (v : Word) : State :=
  { s with actW := v }

/-- Write ACT_H. -/
def State.setActH (s : State) (v : Word) : State :=
  { s with actH := v }

/-- Report a command's result: "its only error effect is a write of a non-zero value to `STATUS.CODE`" (R130). The one
place where CODE is written. -/
def State.reportCode (s : State) (c : Code) : State :=
  { s with status := { s.status with code := c } }

/-- What every RASTER records before its check: LAST_SCREEN, EXP_W and EXP_H (R26, R27, R92). -/
def State.recordRaster (s : State) (scr : Screen) (w h : Byte) : State :=
  { s with status := { s.status with lastScreen := scr }, expW := w, expH := h }

/-- Return one byte to the host (R80, R82). -/
def State.returnByte (s : State) (b : Byte) : State :=
  { s with returned := s.returned ++ [b] }

/-- The reset event (R150): every state element takes its reset value, SRC and PB new draws. What the host still has to
issue and what it has received are the host's, and stay (notes/assumptions/5.md). -/
def State.takeReset (s : State) : State :=
  { State.reset with pending := s.pending, returned := s.returned, epoch := s.epoch + 1 }

/-- The oldest event at the port, and the state with it taken off: events are served "one at a time, in the order the
host issues them" (R50). -/
def State.takeEvent? (s : State) : Option (HostEvent × State) :=
  match s.pending with
  | [] => none
  | e :: rest => some (e, { s with pending := rest })

/-- The host issues a transaction that the RSU serves next. -/
def State.issueNext (s : State) (tw : TransactionWord) : State :=
  { s with pending := .transaction tw :: s.pending }

end Sys2Proof.Machine
end

