-- ==== Sys2Proof/Machine/Flags.lean ====
section
/-! DEFINITION. The status register as the host reads it (spec/10_state.md R27, R32): STATUS.CODE is the RSU's only
condition code. -/

namespace Sys2Proof.Machine

/-- The two bits of `CODE` (R27, R131). -/
def Code.bits : Code → BitVec 2
  | .ok => 0#2
  | .sizeMismatch => 1#2
  | .illegalCmd => 2#2

/-- STATUS as a byte: `{0b0, LAST_SCREEN[2:0], 0b00, CODE[1:0]}` (R80). The reserved bits read 0 (R27). -/
def Status.byte (st : Status) : Byte :=
  0#1 ++ st.lastScreen ++ 0#2 ++ st.code.bits

end Sys2Proof.Machine
end

