-- ==== Sys2Proof/Machine/Operands.lean ====
section
/-! DEFINITION. Operand forms: the host-space address map (spec/20_memory.md R41 to R48), the halves of 16-bit
quantities, and the named views of the frame memories. -/

namespace Sys2Proof.Machine

/-- `W(s)`: 128 columns for screen 0, 32 for the others (R5). -/
def screenWidth (n : Nat) : Nat :=
  if n = 0 then 128 else 32

/-- `PB_LEN(s) = 4·W(s)` (R5, R22). -/
def pbLen (n : Nat) : Nat :=
  Config.nPlanes * screenWidth n

/-- `addr(SRC[r][c]) = r·128 + c` (R42). -/
def srcAddr (r c : Nat) : Nat :=
  r * Config.srcCols + c

/-- `addr(PB[s][j])` (R43). -/
def pbAddr (n j : Nat) : Nat :=
  if n = 0 then 0x1000 + j else 0x1200 + (n - 1) * 128 + j

/-- `SRC[r][c]` (R21). -/
def State.sample (s : State) (r c : Nat) : Byte :=
  s.stored (srcAddr r c)

/-- `PB[n][j]` (R22). -/
def State.pixelByte (s : State) (n j : Nat) : Byte :=
  s.stored (pbAddr n j)

/-- `SEG(n, p, g, k)`, the segment view: zero beyond the real width (R96). -/
def State.segByte (s : State) (n p g k : Nat) : Byte :=
  let x := g * Config.segWidth + k
  if x < screenWidth n then s.pixelByte n (p * screenWidth n + x) else 0x00#8

/-- One byte of a 16-bit quantity (R6). -/
def halfOf : Half → Word → Byte
  | .hi, v => v.extractLsb' 8 8
  | .lo, v => v.extractLsb' 0 8

/-- A 16-bit quantity with one byte replaced: `{d, v[7:0]}` or `{v[15:8], d}` (R81). -/
def withHalf : Half → Word → Byte → Word
  | .hi, v, d => d ++ v.extractLsb' 0 8
  | .lo, v, d => v.extractLsb' 8 8 ++ d

/-- Big-endian: the even byte is the high one, at the lower address (R45, R48). -/
def halfAt (k : Nat) : Half :=
  if k % 2 = 0 then .hi else .lo

/-- What a host address names (R41). -/
inductive Loc where
  | src (r c : Nat)
  | pb (n j : Nat)
  | pct (i : Fin 24)
  | dcv (i : Fin 24) (h : Half)
  | cmd
  | status
  | actW (h : Half)
  | actH (h : Half)
  | expW
  | expH
  | seg (n p g k : Nat)
  | reserved
deriving DecidableEq, Repr

/-- The address map R41, each range by its decode rule: SRC R42, PB R43, PCT R44, DCV R45, SEGVIEW R46, reserved R47. -/
def decodeAddr (addr : Addr) : Loc :=
  let a := addr.toNat
  if a ≤ 0x0FFF then .src (a / 128) (a % 128)
  else if a ≤ 0x11FF then .pb 0 (a - 0x1000)
  else if a ≤ 0x157F then .pb (1 + (a - 0x1200) / 128) ((a - 0x1200) % 128)
  else if h : 0x1800 ≤ a ∧ a ≤ 0x1817 then .pct ⟨a - 0x1800, by omega⟩
  else if h : 0x1820 ≤ a ∧ a ≤ 0x184F then .dcv ⟨(a - 0x1820) / 2, by omega⟩ (halfAt (a - 0x1820))
  else if a = 0x1900 then .cmd
  else if a = 0x1901 then .status
  else if a = 0x1902 then .actW .hi
  else if a = 0x1903 then .actW .lo
  else if a = 0x1904 then .actH .hi
  else if a = 0x1905 then .actH .lo
  else if a = 0x1906 then .expW
  else if a = 0x1907 then .expH
  else if 0x2000 ≤ a ∧ a ≤ 0x2FFF then
    .seg (addr.extractLsb' 9 3).toNat (addr.extractLsb' 7 2).toNat (addr.extractLsb' 4 3).toNat
      (addr.extractLsb' 0 4).toNat
  else .reserved

end Sys2Proof.Machine
end

