-- ==== Sys2Proof/Machine/Raster.lean ====
section
/-! DEFINITION. The bitmap rasterizer and the commands (spec/41_rasterizer.md). -/

namespace Sys2Proof.Machine

/-- `black(v)`: the sample is 0x00; every other sample is white (R9). -/
def black (v : Byte) : Bool :=
  v == 0x00#8

/-- One PixelBuffer byte, built from 0x00: bit `z` is set when the sample at row `(3-p)*8 + (7-z)`, column `x` is black
(R92). -/
def packByte (sample : Nat → Nat → Byte) (p x : Nat) : Byte :=
  (List.range 8).foldl
    (fun b z => if black (sample ((3 - p) * 8 + (7 - z)) x) then b ||| (1#8 <<< z) else b) 0x00#8

/-- The whole PixelBuffer of a screen `w` columns wide, plane-major: byte `p*w + x` is that of plane `p`, column `x`
(R23, R92). -/
def pixelBuffer (sample : Nat → Nat → Byte) (w : Nat) : List Byte :=
  (List.range (Config.nPlanes * w)).map (fun j => packByte sample (j / w) (j % w))

/-- The exact-dimension check: "any other size fails with `SizeMismatch`" (R92, R131). All 16 bits are compared. -/
def State.dimsMatch (s : State) (scr : Screen) : Bool :=
  s.actW.toNat == screenWidth scr.toNat && s.actH.toNat == Config.height

/-- `NOP`: no state change, not even STATUS (R91). -/
def execNop (s : State) : Host.Outcome State Fault Refusal :=
  .next s

/-- `RASTER s` (R92): record the screen and the expected dimensions, check, and on success rewrite all of PB[s] from the
staging frame; on a mismatch PB[s] stays as it is. -/
def execRaster (scr : Screen) (s : State) : Host.Outcome State Fault Refusal :=
  let w := screenWidth scr.toNat
  let s₁ := s.recordRaster scr (BitVec.ofNat 8 w) (BitVec.ofNat 8 Config.height)
  if s.dimsMatch scr then
    .next ((s₁.storeBlock (pbAddr scr.toNat 0) (pixelBuffer s.sample w)).reportCode .ok)
  else
    .next (s₁.reportCode .sizeMismatch)

/-- An illegal command byte: STATUS.CODE is set to ILLEGAL_CMD and nothing else changes (R95). -/
def execIllegalCmd (s : State) : Host.Outcome State Fault Refusal :=
  .next (s.reportCode .illegalCmd)

/-- `ExecCmd(d)`: what a write of `d` to CMD runs, to completion (R90). -/
def execCmd (d : Byte) (s : State) : Host.Outcome State Fault Refusal :=
  match decodeCmd8 d with
  | .nop => execNop s
  | .raster scr => execRaster scr s
  | .illegal => execIllegalCmd s

end Sys2Proof.Machine
end

