-- ==== Sys2Proof/Machine/Scaler.lean ====
section
/-! DEFINITION. The color value scaler (spec/42_color_scaler.md). -/

namespace Sys2Proof.Machine

/-- `encode16(p) = min((p·13107) div 20, 65535)`, computed exactly and narrowed at the end (R110). -/
def encode16 (p : Byte) : Word :=
  BitVec.ofNat 16 (min (p.toNat * 13107 / 20) 65535)

/-- `min(d, 100)`: what a write of `d` stores in a PCT register (R111). -/
def clampPct (d : Byte) : Byte :=
  BitVec.ofNat 8 (min d.toNat 100)

/-- `DCV[i] = encode16(PCT[i])`: not storage, computed on every read (R29, R112). -/
def State.dcv (s : State) (i : Fin 24) : Word :=
  encode16 s.pct[i]

end Sys2Proof.Machine
end

