-- ==== Sys2Proof/Machine/HostBus.lean ====
section
/-! DEFINITION. The host transactions RD and WR (spec/40_host_bus.md R80, R81). -/

namespace Sys2Proof.Machine

/-- `HostRead`: the byte a read of a location returns (R80). -/
def readLoc (s : State) : Loc → Byte
  | .src r c => s.sample r c
  | .pb n j => s.pixelByte n j
  | .pct i => s.pct[i]
  | .dcv i h => halfOf h (s.dcv i)
  | .cmd => 0x00#8
  | .status => s.status.byte
  | .actW h => halfOf h s.actW
  | .actH h => halfOf h s.actH
  | .expW => s.expW
  | .expH => s.expH
  | .seg n p g k => s.segByte n p g k
  | .reserved => 0x00#8

/-- `HostRead(a)`: "Every address returns a byte" (R80). -/
def hostRead (s : State) (a : Addr) : Byte :=
  readLoc s (decodeAddr a)

/-- `HostWrite`: the effect of a write to a location (R81). A write to CMD runs a command; a write to a read-only or
reserved location has no effect and reports nothing (R47). -/
def writeLoc (d : Byte) (s : State) : Loc → Host.Outcome State Fault Refusal
  | .src r c => .next (s.storeByte (srcAddr r c) d)
  | .pb _ _ => .next s
  | .pct i => .next (s.setPct i (clampPct d))
  | .dcv _ _ => .next s
  | .cmd => execCmd d s
  | .status => .next s
  | .actW h => .next (s.setActW (withHalf h s.actW d))
  | .actH h => .next (s.setActH (withHalf h s.actH d))
  | .expW => .next s
  | .expH => .next s
  | .seg _ _ _ _ => .next s
  | .reserved => .next s

/-- `RD a`: the byte goes to the host and no state of the RSU changes; DATA is ignored (R61, R80, R82). -/
def execRd (addr : Addr) (_data : Byte) (s : State) : Host.Outcome State Fault Refusal :=
  .next (s.returnByte (hostRead s addr))

/-- `WR a, d` (R81, R82). -/
def execWr (addr : Addr) (data : Byte) (s : State) : Host.Outcome State Fault Refusal :=
  writeLoc data s (decodeAddr addr)

end Sys2Proof.Machine
end

