-- ==== Sys2Proof/Machine/Dispatch.lean ====
section
/-! DEFINITION. One arm per constructor of Instr, each one call of its meaning. -/

namespace Sys2Proof.Machine

def exec (i : Instr) (s : State) : Host.Outcome State Fault Refusal :=
  match i with
  | .rd addr data => Sys2Proof.Machine.execRd addr data s
  | .wr addr data => Sys2Proof.Machine.execWr addr data s
  | .nop => Sys2Proof.Machine.execNop s
  | .raster scr => Sys2Proof.Machine.execRaster scr s

end Sys2Proof.Machine
end

