-- ==== Sys2Proof/Machine/Step.lean ====
section
/-! DEFINITION. One step: one host event, atomic (spec/40_host_bus.md R82; spec/20_memory.md R50). -/

namespace Sys2Proof.Machine

/-- Serve the oldest event at the port: a transaction is decoded and executed (R82), a reset is taken (R150). With no
event nothing is pending and nothing changes (R83; notes/assumptions/2.md). -/
def step (s : State) : Host.Outcome State Fault Refusal :=
  match s.takeEvent? with
  | none => .next s
  | some (.reset, s') => .next s'.takeReset
  | some (.transaction tw, s') => exec (decodeHT tw) s'

/-- The state in which the host issues an opcode-table row's word next: an HT word as it is, a command byte as the
`WR 0x1900` that carries it (R60; notes/assumptions/1.md). -/
def State.withFetchWord (s : State) (nbits w : Nat) : State :=
  s.issueNext (tableTransaction nbits w)

end Sys2Proof.Machine
end

