-- ==== Sys2Proof/Machine/Pseudo.lean ====
section
/-! DEFINITION. The pseudo-instructions (spec/30_encoding.md R69): each expands to host transactions, and "the expansion
is the definition". -/

namespace Sys2Proof.Machine

/-- The pseudo-instructions with their operands as the host writes them (R69). -/
inductive Pseudo where
  | nop
  | raster (n : Nat)
  | ldpix (r c v : Nat)
  | setdim (w h : Nat)
  | setpct (n c v : Nat)
  | rdpb (n j : Nat)
  | rddcv (n c : Nat)
  | rdseg (n p g k : Nat)
  | rdstat
deriving DecidableEq, Repr

/-- Operands in range: screens 0..7 (R69), samples and percentages one byte (R21, R24), dimensions 16 bits (R25), rows and
columns of SRC (R21), channels (R24), PixelBuffer indices (R22), planes, segments and columns of a segment (R96). -/
def Pseudo.wf : Pseudo → Bool
  | .nop => true
  | .raster n => n < 8
  | .ldpix r c v => r < 32 && c < 128 && v < 256
  | .setdim w h => w < 65536 && h < 65536
  | .setpct n c v => n < 8 && c < 3 && v < 256
  | .rdpb n j => n < 8 && j < pbLen n
  | .rddcv n c => n < 8 && c < 3
  | .rdseg n p g k => n < 8 && p < 4 && g < 8 && k < 16
  | .rdstat => true

/-- `RD a` from a numeral; the assembler writes DATA 0 (R61). -/
def readAt (a : Nat) : Instr :=
  .rd (BitVec.ofNat 16 a) 0x00#8

/-- `WR a, d` from numerals (R61). -/
def writeAt (a d : Nat) : Instr :=
  .wr (BitVec.ofNat 16 a) (BitVec.ofNat 8 d)

/-- The transactions a pseudo-instruction stands for, in order (R69). -/
def Pseudo.expand : Pseudo → List Instr
  | .nop => [writeAt 0x1900 0x00]
  | .raster n => [writeAt 0x1900 (0x10 + n)]
  | .ldpix r c v => [writeAt (r * 128 + c) v]
  | .setdim w h =>
    [writeAt 0x1902 (w / 256), writeAt 0x1903 (w % 256), writeAt 0x1904 (h / 256), writeAt 0x1905 (h % 256)]
  | .setpct n c v => [writeAt (0x1800 + 3 * n + c) v]
  | .rdpb n j => [readAt (if n = 0 then 0x1000 + j else 0x1200 + (n - 1) * 128 + j)]
  | .rddcv n c => [readAt (0x1820 + 2 * (3 * n + c)), readAt (0x1821 + 2 * (3 * n + c))]
  | .rdseg n p g k => [readAt (0x2000 + 512 * n + 128 * p + 16 * g + k)]
  | .rdstat => [readAt 0x1901]

end Sys2Proof.Machine
end

