-- ==== Sys2Proof/Machine/Assembler.lean ====
section
/-! DEFINITION. The assembler syntax of host programs (spec/30_encoding.md R68): text to transactions. What the spec
leaves open of the text (white space, letter case, numerals out of range) is notes/assumptions/10.md. -/

namespace Sys2Proof.Machine

/-- The pieces of a line. -/
inductive Token where
  | word (cs : List Char)
  | comma
  | arrow
deriving DecidableEq, Repr

/-- A line of a program: its transactions, and the expected result of an `RD` where the listing writes one (R68). -/
structure ListingLine where
  instrs : List Instr
  expected : Option Byte
deriving DecidableEq, Repr

/-- The value of a digit in base 16, if the character is one. -/
def hexDigit? (c : Char) : Option Nat :=
  if '0' ≤ c ∧ c ≤ '9' then some (c.toNat - '0'.toNat)
  else if 'a' ≤ c ∧ c ≤ 'f' then some (c.toNat - 'a'.toNat + 10)
  else if 'A' ≤ c ∧ c ≤ 'F' then some (c.toNat - 'A'.toNat + 10)
  else none

/-- The value of digits in a base, after those already read. -/
def digits? (base : Nat) : Nat → List Char → Option Nat
  | acc, [] => some acc
  | acc, c :: cs =>
    match hexDigit? c with
    | some v => if v < base then digits? base (acc * base + v) cs else none
    | none => none

/-- "numerals, either decimal or `0x` hex" (R68). -/
def numeral? : List Char → Option Nat
  | [] => none
  | '0' :: 'x' :: c :: cs => digits? 16 0 (c :: cs)
  | c :: cs => digits? 10 0 (c :: cs)

/-- "`;` starts a comment that runs to the end of the line" (R68). -/
def withoutComment (line : List Char) : List Char :=
  line.takeWhile (fun c => c != ';')

/-- Close the word being read, which stands reversed in `acc`, in front of the tokens after it. -/
def closeWord (acc : List Char) (rest : List Token) : List Token :=
  if acc.isEmpty then rest else .word acc.reverse :: rest

/-- The tokens of a line; white space separates words. -/
def tokens : List Char → List Char → List Token
  | acc, [] => closeWord acc []
  | acc, ',' :: cs => closeWord acc (.comma :: tokens [] cs)
  | acc, '-' :: '>' :: cs => closeWord acc (.arrow :: tokens [] cs)
  | acc, c :: cs => if c.isWhitespace then closeWord acc (tokens [] cs) else tokens (c :: acc) cs

/-- The operands after a mnemonic, separated by commas, and the expected byte after an arrow. -/
def operands? : List Token → Option (List Nat × Option Nat)
  | [] => some ([], none)
  | [.arrow, .word v] => (numeral? v).map (fun n => ([], some n))
  | [.word a] => (numeral? a).map (fun n => ([n], none))
  | [.word a, .arrow, .word v] =>
    match numeral? a, numeral? v with
    | some n, some e => some ([n], some e)
    | _, _ => none
  | .word a :: .comma :: .word b :: rest =>
    match numeral? a, operands? (.word b :: rest) with
    | some n, some (ns, e) => some (n :: ns, e)
    | _, _ => none
  | _ => none

/-- A pseudo-instruction's transactions, if its operands are in range. -/
def expandChecked (p : Pseudo) : Option (List Instr) :=
  if p.wf then some p.expand else none

/-- The transactions of a mnemonic with its operands (R68, R69). `WR 0x1900, d` is accepted for any `d` (R71). -/
def statement? (mnemonic : List Char) (args : List Nat) : Option (List Instr) :=
  match args with
  | [] =>
    if mnemonic = "NOP".toList then expandChecked .nop
    else if mnemonic = "RDSTAT".toList then expandChecked .rdstat
    else none
  | [a] =>
    if mnemonic = "RD".toList then (if a < 65536 then some [readAt a] else none)
    else if mnemonic = "RASTER".toList then expandChecked (.raster a)
    else none
  | [a, b] =>
    if mnemonic = "WR".toList then (if a < 65536 ∧ b < 256 then some [writeAt a b] else none)
    else if mnemonic = "SETDIM".toList then expandChecked (.setdim a b)
    else if mnemonic = "RDPB".toList then expandChecked (.rdpb a b)
    else if mnemonic = "RDDCV".toList then expandChecked (.rddcv a b)
    else none
  | [a, b, c] =>
    if mnemonic = "LDPIX".toList then expandChecked (.ldpix a b c)
    else if mnemonic = "SETPCT".toList then expandChecked (.setpct a b c)
    else none
  | [a, b, c, d] =>
    if mnemonic = "RDSEG".toList then expandChecked (.rdseg a b c d) else none
  | _ => none

/-- Does a line's transaction list return exactly one byte: an expected result belongs to an `RD` (R68). -/
def isOneRead : List Instr → Bool
  | [.rd _ _] => true
  | _ => false

/-- One line: blank or a comment, or a statement with at most one expected byte. -/
def assembleLine (line : List Char) : Option ListingLine :=
  match tokens [] (withoutComment line) with
  | [] => some { instrs := [], expected := none }
  | .word m :: rest =>
    match operands? rest with
    | some (args, e) =>
      match statement? m args, e with
      | some is, none => some { instrs := is, expected := none }
      | some is, some v =>
        if isOneRead is ∧ v < 256 then some { instrs := is, expected := some (BitVec.ofNat 8 v) } else none
      | none, _ => none
    | none => none
  | _ => none

/-- "A host program is a list of transactions, one per line" (R68). -/
def assemble : List (List Char) → Option (List ListingLine)
  | [] => some []
  | l :: ls =>
    match assembleLine l, assemble ls with
    | some x, some xs => some (x :: xs)
    | _, _ => none

/-- The events by which the host issues instructions in order (R50). -/
def eventsOf (is : List Instr) : List HostEvent :=
  is.map (fun i => .transaction (transactionOf i))

end Sys2Proof.Machine
end

