-- ==== Sys2Proof/Machine/Listing.lean ====
section
/-! DEFINITION. The assembler syntax as text that a host writes (spec/30_encoding.md R68, R69): numerals, statements and
comments, and the value of a numeral, all without reference to the assembler that reads them. -/

namespace Sys2Proof.Machine

/-- A decimal digit. -/
def decChar (d : Fin 10) : Char :=
  match d.val with
  | 0 => '0' | 1 => '1' | 2 => '2' | 3 => '3' | 4 => '4' | 5 => '5' | 6 => '6' | 7 => '7' | 8 => '8' | _ => '9'

/-- A hex digit; its letter may have either case (notes/assumptions/10.md). -/
def hexChar (d : Bool × Fin 16) : Char :=
  match d.2.val with
  | 0 => '0' | 1 => '1' | 2 => '2' | 3 => '3' | 4 => '4' | 5 => '5' | 6 => '6' | 7 => '7' | 8 => '8' | 9 => '9'
  | 10 => if d.1 then 'A' else 'a'
  | 11 => if d.1 then 'B' else 'b'
  | 12 => if d.1 then 'C' else 'c'
  | 13 => if d.1 then 'D' else 'd'
  | 14 => if d.1 then 'E' else 'e'
  | _ => if d.1 then 'F' else 'f'

/-- "numerals, either decimal or `0x` hex" (R68), each of one digit or more. The flag of a hex digit is its case. -/
inductive Numeral where
  | dec (d : Fin 10) (ds : List (Fin 10))
  | hex (d : Bool × Fin 16) (ds : List (Bool × Fin 16))
deriving DecidableEq, Repr

/-- The numeral as it is written (R68). -/
def Numeral.text : Numeral → List Char
  | .dec d ds => (d :: ds).map decChar
  | .hex d ds => '0' :: 'x' :: (d :: ds).map hexChar

/-- The number it stands for. -/
def Numeral.value : Numeral → Nat
  | .dec d ds => ds.foldl (fun n e => n * 10 + e.val) d.val
  | .hex d ds => ds.foldl (fun n e => n * 16 + e.2.val) d.2.val

/-- Operands after a mnemonic, separated by commas: ` a, b, c` (R68, R69). -/
def operandsText : List Numeral → List Char
  | [] => []
  | [a] => ' ' :: a.text
  | a :: b :: rest => ' ' :: (a.text ++ ',' :: operandsText (b :: rest))

/-- "the expected result of an `RD` is written after `->`" (R68), or nothing. -/
def expectedText : Option Numeral → List Char
  | none => []
  | some v => ' ' :: '-' :: '>' :: ' ' :: v.text

/-- "`;` starts a comment that runs to the end of the line" (R68), or nothing. -/
def commentText : Option (List Char) → List Char
  | none => []
  | some c => ' ' :: ';' :: c

/-- A line with a statement: mnemonic, operands, expected result, comment. -/
def lineText (mnemonic : List Char) (args : List Numeral) (expected : Option Numeral) (comment : Option (List Char)) :
    List Char :=
  mnemonic ++ operandsText args ++ expectedText expected ++ commentText comment

/-- The name of a pseudo-instruction (R69). -/
def Pseudo.mnemonic : Pseudo → List Char
  | .nop => ['N', 'O', 'P']
  | .raster _ => ['R', 'A', 'S', 'T', 'E', 'R']
  | .ldpix _ _ _ => ['L', 'D', 'P', 'I', 'X']
  | .setdim _ _ => ['S', 'E', 'T', 'D', 'I', 'M']
  | .setpct _ _ _ => ['S', 'E', 'T', 'P', 'C', 'T']
  | .rdpb _ _ => ['R', 'D', 'P', 'B']
  | .rddcv _ _ => ['R', 'D', 'D', 'C', 'V']
  | .rdseg _ _ _ _ => ['R', 'D', 'S', 'E', 'G']
  | .rdstat => ['R', 'D', 'S', 'T', 'A', 'T']

/-- The operands of a pseudo-instruction in the order they are written (R69). -/
def Pseudo.operands : Pseudo → List Nat
  | .nop => []
  | .raster n => [n]
  | .ldpix r c v => [r, c, v]
  | .setdim w h => [w, h]
  | .setpct n c v => [n, c, v]
  | .rdpb n j => [n, j]
  | .rddcv n c => [n, c]
  | .rdseg n p g k => [n, p, g, k]
  | .rdstat => []

end Sys2Proof.Machine
end

