-- ==== Sys2Proof/Safety.lean ====
section
/-! DEFINITION. The terms that claims about runs use: what a state between transactions always satisfies, which steps
write a PixelBuffer, and the rasterizer's pseudocode loop by loop. -/

namespace Sys2Proof.Machine

/-- Every byte of PB[n] has been written since the last reset. -/
def pbListed (s : State) (n : Nat) : Prop :=
  ∀ j < pbLen n, s.mem.read? (pbAddr n j) ≠ none

/-- No byte of PB[n] has been written since the last reset: all are draws (spec/93_implementation_defined.md U2). -/
def pbUnlisted (s : State) (n : Nat) : Prop :=
  ∀ j < pbLen n, s.mem.read? (pbAddr n j) = none

/-- What every state between two transactions satisfies, from reset on. -/
structure Inv (s : State) : Prop where
  /-- The frame memories are in canonical form, within SRC and PB (R41). -/
  memCanonical : s.mem.wf
  /-- Every percentage is legal, 0..100 (R24, R111). -/
  pctLegal : ∀ i : Fin 24, s.pct[i].toNat ≤ 100
  /-- No RASTER since reset (all of STATUS and EXP as reset left it, but for an illegal command), or EXP is that of
  LAST_SCREEN (R26, R27). -/
  expRecorded :
    (s.expW = 0#8 ∧ s.expH = 0#8 ∧ s.status.lastScreen = 0#3 ∧ s.status.code ≠ .sizeMismatch) ∨
      (s.expW.toNat = screenWidth s.status.lastScreen.toNat ∧ s.expH.toNat = Config.height)
  /-- A PixelBuffer is written whole or not at all: never a partial result (R92, R132). -/
  pbWhole : ∀ n < Config.nScreens, pbListed s n ∨ pbUnlisted s n
  /-- What the host checks in step 4 of R152: once a RASTER has run, CODE = 0 says that PB[LAST_SCREEN] is specified. -/
  okMeansWritten : s.status.code = .ok → s.expW ≠ 0#8 → pbListed s s.status.lastScreen.toNat

/-- The next step writes PB[n]: it takes a reset, or it runs a `RASTER n` whose dimension check succeeds. A `RASTER n`
whose check fails leaves PB[n] as it is (R92, corner case 1). -/
def State.rewritesNext (s : State) (n : Nat) : Bool :=
  match s.pending with
  | [] => false
  | .reset :: _ => true
  | .transaction tw :: _ =>
    match decodeHT tw with
    | .wr a d =>
      a == cmdAddr && decodeCmd8 d == .raster (BitVec.ofNat 3 n) && s.dimsMatch (BitVec.ofNat 3 n)
    | _ => false

/-- The event returns a byte: it is an `RD` (R82). -/
def HostEvent.reads : HostEvent → Bool
  | .reset => false
  | .transaction tw =>
    match decodeHT tw with
    | .rd _ _ => true
    | _ => false

/-- `k` steps. No step stops (R82), so a run is these steps in order (R50). -/
def runSteps : Nat → State → Host.Outcome State Fault Refusal
  | 0, s => .next s
  | k + 1, s =>
    match step s with
    | .next t => runSteps k t
    | .fault r => .fault r
    | .refused r => .refused r

/-- The host issues instructions, in order, and nothing else is pending. -/
def State.issuing (s : State) (is : List Instr) : State :=
  { s with pending := eventsOf is }

/-- The innermost assignments of RASTER's pseudocode: build the byte bit by bit, then store it at `PB[n][p*w + x]`
(R92). The samples are read from the state the loop has reached. -/
def loopByte (n w : Nat) (s : State) (p x : Nat) : State :=
  s.storeByte (pbAddr n (p * w + x)) (packByte s.sample p x)

/-- RASTER's loops as the pseudocode runs them, one PB byte at a time, in increasing order (R10, R92). -/
def rasterLoop (n : Nat) (s : State) : State :=
  (List.range Config.nPlanes).foldl
    (fun s p => (List.range (screenWidth n)).foldl (fun s x => loopByte n (screenWidth n) s p x) s) s

end Sys2Proof.Machine
end

