-- ==== Sys2Proof/Certificates/Slice0/Obligations.lean ====
section
/-! DEFINITION. The statements for the provers. Each docstring names the rule of spec/ it formalises. -/

open Sys2Proof Sys2Proof.Machine

/-! ### Reset and steps -/

/-- R150's table: the registers' stated values, and SRC and PB draws at every place. The draws are the free values of
notes/assumptions/4.md: the statement says where they stand, not what they are. -/
def Obligations.ResetHoldsTheStatedValues : Prop :=
  (∀ i : Fin 24, State.reset.pct[i] = 0x00#8 ∧ State.reset.dcv i = 0x0000#16) ∧
  State.reset.actW = 0x0000#16 ∧ State.reset.actH = 0x0000#16 ∧
  State.reset.expW = 0x00#8 ∧ State.reset.expH = 0x00#8 ∧ State.reset.status.byte = 0x00#8 ∧
  (∀ r c, r < 32 → c < 128 → State.reset.sample r c = Config.resetByte 0 (r * 128 + c)) ∧
  (∀ n j, n < 8 → j < pbLen n → State.reset.pixelByte n j = Config.resetByte 0 (pbAddr n j))

/-- A reset event gives every element its reset value again, with draws of its own (R150). That the host's queue and what
it has received outlive it is the model's choice (notes/assumptions/5.md). -/
def Obligations.ResetEventRestoresEveryElement : Prop :=
  ∀ (s : State) (rest : List HostEvent), s.pending = .reset :: rest →
    ∃ t, step s = .next t ∧ t.pending = rest ∧ t.returned = s.returned ∧
      (∀ i : Fin 24, t.pct[i] = 0x00#8) ∧ t.actW = 0x0000#16 ∧ t.actH = 0x0000#16 ∧
      t.expW = 0x00#8 ∧ t.expH = 0x00#8 ∧ t.status = { code := .ok, lastScreen := 0#3 } ∧
      ∀ a, t.stored a = Config.resetByte (s.epoch + 1) a

/-- The invariant holds right after reset. -/
def Obligations.InvariantHoldsAtReset : Prop :=
  Inv State.reset

/-- Every step keeps the invariant, from every state that meets it; the steps include the model's reset events and idle
steps (notes/assumptions/5.md, 2.md). -/
def Obligations.EveryStepKeepsTheInvariant : Prop :=
  ∀ s t : State, Inv s → step s = .next t → Inv t

/-- A step runs the decoded instruction: the oldest transaction is taken off the port and executed. With nothing pending
a step changes nothing, which is the model's choice (notes/assumptions/2.md). -/
def Obligations.StepRunsTheOldestTransaction : Prop :=
  (∀ (s : State) (tw : TransactionWord) (rest : List HostEvent), s.pending = .transaction tw :: rest →
    step s = exec (decodeHT tw) { s with pending := rest }) ∧
  ∀ s : State, s.pending = [] → step s = .next s

/-- Every instruction of the opcode table, as the transaction that carries it, is what the next step runs; so is every
opcode-table word that the decoder reads (R60, R69). -/
def Obligations.StepRunsTheIssuedInstruction : Prop :=
  (∀ (i : Instr) (s : State), step (s.issueNext (transactionOf i)) = exec i s) ∧
  ∀ (nbits w : Nat) (i : Instr) (s : State), decodeTableWord nbits w = some i →
    step (s.withFetchWord nbits w) = exec i s

/-- From R82: a read returns the byte with the RSU's state unchanged, a write gives the state after it and no byte, no step
faults or is refused, and a run serves every transaction in order. The run clause also passes reset events, which keep the
host's queue and returned bytes, and idle steps past the end of the queue: both are the model's choice
(notes/assumptions/5.md, unsafe, and 2.md). -/
def Obligations.EveryRunServesEveryTransaction : Prop :=
  (∀ (s : State) (tw : TransactionWord) (rest : List HostEvent), s.pending = .transaction tw :: rest →
    (tw.getLsbD 24 = false → step s = .next { s with
      pending := rest, returned := s.returned ++ [hostRead s (tw.extractLsb' 8 16)] }) ∧
    (tw.getLsbD 24 = true → ∃ t, step s = .next t ∧ t.pending = rest ∧ t.returned = s.returned ∧
      exec (.wr (tw.extractLsb' 8 16) (tw.extractLsb' 0 8)) { s with pending := rest } = .next t)) ∧
  ∀ (k : Nat) (s : State), ∃ t bs, runSteps k s = .next t ∧ t.pending = s.pending.drop k ∧
    t.returned = s.returned ++ bs ∧ bs.length = (s.pending.take k).countP HostEvent.reads

/-! ### Encoding -/

/-- No field of an encoding is dropped: every instruction, with every operand at every value, decodes from its own
encoding, and from the transaction that carries it. -/
def Obligations.DecodeInvertsEncode : Prop :=
  (∀ i : Instr, decode (encode i) = .ok i) ∧
  ∀ i : Instr, decodeHT (transactionOf i) =
    match i with
    | .rd a d => .rd a d
    | .wr a d => .wr a d
    | .nop => .wr 0x1900#16 0x00#8
    | .raster scr => .wr 0x1900#16 (BitVec.ofNat 8 (0x10 + scr.toNat))

/-- Each word has one meaning: what a word decodes to encodes as that word. -/
def Obligations.EncodeInvertsDecode : Prop :=
  ∀ (t : TableWord) (i : Instr), decode t = .ok i → encode i = t

/-- R62: every 25-bit word is a read or a write of its fields, and none is refused. -/
def Obligations.EveryTransactionWordDecodes : Prop :=
  ∀ tw : TransactionWord, ∃ (a : Addr) (d : Byte),
    a.toNat = tw.toNat / 2 ^ 8 % 2 ^ 16 ∧ d.toNat = tw.toNat % 2 ^ 8 ∧
    ((tw.toNat < 2 ^ 24 ∧ decode (.ht tw) = .ok (.rd a d)) ∨ (2 ^ 24 ≤ tw.toNat ∧ decode (.ht tw) = .ok (.wr a d)))

/-- R64: 0x00 is NOP, 0x10 to 0x17 are RASTER of their low bits, every other byte is illegal, and nine of the 256 values
are legal. -/
def Obligations.CommandBytesDecodeAsTheTableSays : Prop :=
  decode (.cmd8 0x00#8) = .ok .nop ∧
  (∀ d : Byte, 0x10 ≤ d.toNat → d.toNat ≤ 0x17 → decode (.cmd8 d) = .ok (.raster (d.extractLsb' 0 3))) ∧
  (∀ d : Byte, (0x01 ≤ d.toNat ∧ d.toNat ≤ 0x0F) ∨ 0x18 ≤ d.toNat →
    decode (.cmd8 d) = .error (.illegalCmd d)) ∧
  ((List.range 256).countP fun d => decodeCmd8 (BitVec.ofNat 8 d) ≠ .illegal) = 9

/-- R70: the spec's four example words. -/
def Obligations.SpecExampleWordsDecode : Prop :=
  transactionOf (.raster 3#3) = 0x1190013#25 ∧ decodeHT 0x1190013#25 = .wr 0x1900#16 0x13#8 ∧
  transactionOf .nop = 0x1190000#25 ∧ decodeHT 0x1190000#25 = .wr 0x1900#16 0x00#8 ∧
  encode (.rd 0x1901#16 0x00#8) = .ht 0x0190100#25 ∧ decodeHT 0x0190100#25 = .rd 0x1901#16 0x00#8 ∧
  encode (.wr 0x0F9F#16 0x00#8) = .ht 0x10F9F00#25 ∧ decodeHT 0x10F9F00#25 = .wr 0x0F9F#16 0x00#8 ∧
  decode (.cmd8 0x13#8) = .ok (.raster 3#3) ∧ decode (.cmd8 0x00#8) = .ok .nop

/-! ### Host transactions -/

/-- R80: `RD a` with any DATA returns the byte the address map names and changes nothing else. -/
def Obligations.ReadReturnsTheByteTheMapNames : Prop :=
  ∀ (a : Addr) (data : Byte) (s : State), ∃ b : Byte,
    exec (.rd a data) s = .next { s with returned := s.returned ++ [b] } ∧
    (a.toNat ≤ 0x0FFF → b = s.sample (a.toNat / 128) (a.toNat % 128)) ∧
    (0x1000 ≤ a.toNat → a.toNat ≤ 0x11FF → b = s.pixelByte 0 (a.toNat - 0x1000)) ∧
    (0x1200 ≤ a.toNat → a.toNat ≤ 0x157F →
      b = s.pixelByte (1 + (a.toNat - 0x1200) / 128) ((a.toNat - 0x1200) % 128)) ∧
    (∀ i : Fin 24, a.toNat = 0x1800 + i.val → b = s.pct[i]) ∧
    (∀ i : Fin 24, a.toNat = 0x1820 + 2 * i.val →
      b.toNat = min (s.pct[i].toNat * 13107 / 20) 65535 / 256) ∧
    (∀ i : Fin 24, a.toNat = 0x1821 + 2 * i.val →
      b.toNat = min (s.pct[i].toNat * 13107 / 20) 65535 % 256) ∧
    (a = 0x1900#16 → b = 0x00#8) ∧
    (a = 0x1901#16 → b.toNat = s.status.lastScreen.toNat * 16 + s.status.code.bits.toNat) ∧
    (a = 0x1902#16 → b.toNat = s.actW.toNat / 256) ∧
    (a = 0x1903#16 → b.toNat = s.actW.toNat % 256) ∧
    (a = 0x1904#16 → b.toNat = s.actH.toNat / 256) ∧
    (a = 0x1905#16 → b.toNat = s.actH.toNat % 256) ∧
    (a = 0x1906#16 → b = s.expW) ∧
    (a = 0x1907#16 → b = s.expH) ∧
    (∀ n p g k, n < 8 → p < 4 → g < 8 → k < 16 → a.toNat = 0x2000 + 512 * n + 128 * p + 16 * g + k →
      b = if 16 * g + k < screenWidth n then s.pixelByte n (p * screenWidth n + (16 * g + k)) else 0x00#8) ∧
    ((0x1580 ≤ a.toNat ∧ a.toNat ≤ 0x17FF) ∨ (0x1818 ≤ a.toNat ∧ a.toNat ≤ 0x181F) ∨
      (0x1850 ≤ a.toNat ∧ a.toNat ≤ 0x18FF) ∨ (0x1908 ≤ a.toNat ∧ a.toNat ≤ 0x1FFF) ∨ 0x3000 ≤ a.toNat →
      b = 0x00#8)

/-- R51's read half: no read changes the RSU's state, and two reads of one address with no write between them return the
same byte. -/
def Obligations.ReadsAreIdempotent : Prop :=
  ∀ (a : Addr) (data data' : Byte) (s : State), ∃ t u b,
    exec (.rd a data) s = .next t ∧ exec (.rd a data') t = .next u ∧
    t = { s with returned := s.returned ++ [b] } ∧ u = { s with returned := s.returned ++ [b] ++ [b] }

/-- R81: what `WR a, d` stores, for every address. A sample's write changes that byte of the frame memories alone. -/
def Obligations.WriteDoesWhatTheMapSays : Prop :=
  ∀ (a : Addr) (d : Byte) (s : State),
    (a.toNat ≤ 0x0FFF → ∃ t, exec (.wr a d) s = .next t ∧ t = { s with mem := t.mem } ∧
      t.sample (a.toNat / 128) (a.toNat % 128) = d ∧
      ∀ b, b ≠ srcAddr (a.toNat / 128) (a.toNat % 128) → t.stored b = s.stored b) ∧
    (∀ i : Fin 24, a.toNat = 0x1800 + i.val →
      exec (.wr a d) s = .next { s with pct := s.pct.set i (BitVec.ofNat 8 (min d.toNat 100)) }) ∧
    (a = 0x1900#16 → exec (.wr a d) s =
      if d = 0x00#8 then exec .nop s
      else if d.toNat / 8 = 2 then exec (.raster (d.extractLsb' 0 3)) s
      else .next { s with status := { s.status with code := .illegalCmd } }) ∧
    (a = 0x1902#16 → exec (.wr a d) s = .next { s with actW := BitVec.ofNat 16 (d.toNat * 256 + s.actW.toNat % 256) }) ∧
    (a = 0x1903#16 → exec (.wr a d) s = .next { s with actW := BitVec.ofNat 16 (s.actW.toNat / 256 * 256 + d.toNat) }) ∧
    (a = 0x1904#16 → exec (.wr a d) s = .next { s with actH := BitVec.ofNat 16 (d.toNat * 256 + s.actH.toNat % 256) }) ∧
    (a = 0x1905#16 → exec (.wr a d) s = .next { s with actH := BitVec.ofNat 16 (s.actH.toNat / 256 * 256 + d.toNat) }) ∧
    ((0x1000 ≤ a.toNat ∧ a.toNat ≤ 0x17FF) ∨ (0x1818 ≤ a.toNat ∧ a.toNat ≤ 0x18FF) ∨ a = 0x1901#16 ∨
      0x1906 ≤ a.toNat → exec (.wr a d) s = .next s)

/-- R47: a reserved address reads 0x00 and ignores writes, a read-only location ignores writes, and neither reports an
error: the whole state, STATUS with it, is as it was. -/
def Obligations.ReservedAndReadOnlyPlacesIgnoreWrites : Prop :=
  ∀ (a : Addr) (d data : Byte) (s : State),
    ((0x1580 ≤ a.toNat ∧ a.toNat ≤ 0x17FF) ∨ (0x1818 ≤ a.toNat ∧ a.toNat ≤ 0x181F) ∨
      (0x1850 ≤ a.toNat ∧ a.toNat ≤ 0x18FF) ∨ (0x1908 ≤ a.toNat ∧ a.toNat ≤ 0x1FFF) ∨ 0x3000 ≤ a.toNat →
      exec (.rd a data) s = .next { s with returned := s.returned ++ [0x00#8] } ∧ exec (.wr a d) s = .next s) ∧
    ((0x1000 ≤ a.toNat ∧ a.toNat ≤ 0x157F) ∨ (0x1820 ≤ a.toNat ∧ a.toNat ≤ 0x184F) ∨ a = 0x1901#16 ∨
      a = 0x1906#16 ∨ a = 0x1907#16 ∨ (0x2000 ≤ a.toNat ∧ a.toNat ≤ 0x2FFF) → exec (.wr a d) s = .next s)

/-- R155: a read after a write to the same address returns the written value, subject to the PCT clamp. -/
def Obligations.WrittenByteReadsBack : Prop :=
  ∀ (a : Addr) (d data : Byte) (s : State),
    (a.toNat ≤ 0x0FFF ∨ (0x1902 ≤ a.toNat ∧ a.toNat ≤ 0x1905) → ∃ t, exec (.wr a d) s = .next t ∧
      exec (.rd a data) t = .next { t with returned := s.returned ++ [d] }) ∧
    (0x1800 ≤ a.toNat ∧ a.toNat ≤ 0x1817 → ∃ t, exec (.wr a d) s = .next t ∧
      exec (.rd a data) t = .next { t with returned := s.returned ++ [if d.toNat ≤ 100 then d else 0x64#8] })

/-! ### Commands and the rasterizer -/

/-- R90: a byte written to CMD runs exactly one of three things. -/
def Obligations.CommandWriteRunsOneOfThree : Prop :=
  ∀ (d : Byte) (s : State),
    (d = 0x00#8 → exec (.wr 0x1900#16 d) s = exec .nop s) ∧
    (∀ scr : Screen, d = 0b00010#5 ++ scr → exec (.wr 0x1900#16 d) s = exec (.raster scr) s) ∧
    (d ≠ 0x00#8 → d.extractLsb' 3 5 ≠ 0b00010#5 →
      exec (.wr 0x1900#16 d) s = .next { s with status := { s.status with code := .illegalCmd } })

/-- R91: NOP completes in every state and changes nothing, not even STATUS, as a command and as `WR 0x1900, 0x00`. -/
def Obligations.NopChangesNothing : Prop :=
  ∀ s : State, exec .nop s = .next s ∧ exec (.wr 0x1900#16 0x00#8) s = .next s

/-- R92: RASTER records the screen and the expected dimensions; on an exact match it writes every byte of PB[s] from the
staging frame and reports OK; on any mismatch it reports SIZE_MISMATCH and writes no PB byte. -/
def Obligations.RasterChecksThenPacks : Prop :=
  ∀ (scr : Screen) (s : State), ∃ t w, w = (if scr = 0#3 then 128 else 32) ∧
    exec (.raster scr) s = .next t ∧
    t = { s with mem := t.mem, expW := BitVec.ofNat 8 w, expH := 32#8, status := t.status } ∧
    t.status.lastScreen = scr ∧
    (s.actW.toNat = w ∧ s.actH.toNat = 32 →
      t.status.code = .ok ∧
      (∀ p x, p < 4 → x < w → t.pixelByte scr.toNat (p * w + x) = packByte s.sample p x ∧
        ∀ z < 8, (t.pixelByte scr.toNat (p * w + x)).getLsbD z = decide (s.sample ((3 - p) * 8 + (7 - z)) x = 0x00#8)) ∧
      ∀ a, (∀ j < pbLen scr.toNat, a ≠ pbAddr scr.toNat j) → t.stored a = s.stored a) ∧
    (s.actW.toNat ≠ w ∨ s.actH.toNat ≠ 32 → t.status.code = .sizeMismatch ∧ t.mem = s.mem)

/-- R93 as the host sees it: after a successful RASTER, the byte read at PB's address has bit `z` set exactly when the
sample at row (3−p)·8 + 7 − z was black. -/
def Obligations.HostReadsThePackedBits : Prop :=
  ∀ (scr : Screen) (s t : State) (p x z : Nat) (a : Addr) (data : Byte),
    s.actW.toNat = screenWidth scr.toNat → s.actH.toNat = 32 → exec (.raster scr) s = .next t →
    p < 4 → x < screenWidth scr.toNat → z < 8 →
    a.toNat = (if scr = 0#3 then 0x1000 + p * 128 + x else 0x1200 + (scr.toNat - 1) * 128 + p * 32 + x) →
    ∃ b, exec (.rd a data) t = .next { t with returned := s.returned ++ [b] } ∧
      (b.getLsbD z = true ↔ s.sample ((3 - p) * 8 + 7 - z) x = 0x00#8)

/-- R94: the inverse map from a pixel to its bit, and that it is one-to-one on the screen's pixels. -/
def Obligations.InverseMapReconstructsThePixels : Prop :=
  (∀ (scr : Screen) (s t : State) (r x : Nat),
    s.actW.toNat = screenWidth scr.toNat → s.actH.toNat = 32 → exec (.raster scr) s = .next t →
    r < 32 → x < screenWidth scr.toNat →
    (s.sample r x = 0x00#8 ↔
      (t.pixelByte scr.toNat ((3 - r / 8) * screenWidth scr.toNat + x)).getLsbD (7 - r % 8) = true)) ∧
  ∀ n r r' x x' : Nat, r < 32 → r' < 32 → x < screenWidth n → x' < screenWidth n →
    (3 - r / 8) * screenWidth n + x = (3 - r' / 8) * screenWidth n + x' → 7 - r % 8 = 7 - r' % 8 →
    r = r' ∧ x = x'

/-- R95: an illegal command byte sets CODE to 2 and changes nothing else; STATUS keeps its screen. -/
def Obligations.IllegalCommandOnlySetsCode : Prop :=
  ∀ (d : Byte) (s : State), (0x01 ≤ d.toNat ∧ d.toNat ≤ 0x0F) ∨ 0x18 ≤ d.toNat →
    ∃ t, exec (.wr 0x1900#16 d) s = .next t ∧ t = { s with status := { s.status with code := .illegalCmd } } ∧
      t.status.byte.toNat = s.status.lastScreen.toNat * 16 + 2

/-- R97: for screen 0 the segment view shows every byte of PB[0]; for screens 1..7 segments 0 and 1 show PB[s] and
segments 2..7 read 0x00. -/
def Obligations.SegmentViewPadsWithZero : Prop :=
  ∀ (n p g k : Nat) (a : Addr) (data : Byte) (s : State), n < 8 → p < 4 → g < 8 → k < 16 →
    a.toNat = 0x2000 + 512 * n + 128 * p + 16 * g + k →
    (n = 0 → exec (.rd a data) s = .next { s with
      returned := s.returned ++ [s.pixelByte 0 (p * 128 + g * 16 + k)] }) ∧
    (n ≠ 0 → g < 2 → exec (.rd a data) s = .next { s with
      returned := s.returned ++ [s.pixelByte n (p * 32 + g * 16 + k)] }) ∧
    (n ≠ 0 → 2 ≤ g → exec (.rd a data) s = .next { s with returned := s.returned ++ [0x00#8] })

/-- R98: what the three commands do not write. -/
def Obligations.CommandsAreIsolated : Prop :=
  (∀ (scr : Screen) (s : State), ∃ t, exec (.raster scr) s = .next t ∧
    t.pct = s.pct ∧ t.actW = s.actW ∧ t.actH = s.actH ∧
    (∀ r c, r < 32 → c < 128 → t.sample r c = s.sample r c) ∧
    ∀ n j, n < 8 → n ≠ scr.toNat → j < pbLen n → t.pixelByte n j = s.pixelByte n j) ∧
  (∀ s : State, exec .nop s = .next s) ∧
  ∀ (d : Byte) (s : State), decodeCmd8 d = .illegal →
    exec (.wr 0x1900#16 d) s = .next { s with status := { s.status with code := .illegalCmd } }

/-- The block that the model's RASTER stores is what its pseudocode's loops leave, one byte after the other: the same
reads at every address, and on canonical memory the same state (R10, R92; notes/assumptions/11.md). -/
def Obligations.RasterBlockIsTheLoop : Prop :=
  ∀ (scr : Screen) (s t : State), s.actW.toNat = screenWidth scr.toNat → s.actH.toNat = 32 →
    exec (.raster scr) s = .next t →
    (∀ a, t.stored a = (rasterLoop scr.toNat s).stored a) ∧
    (s.mem.wf → t = { rasterLoop scr.toNat s with
      expW := BitVec.ofNat 8 (screenWidth scr.toNat), expH := 32#8, status := { code := .ok, lastScreen := scr } })

/-- R92's corner case 6: a second RASTER of the same screen with nothing changed between leaves the same state. -/
def Obligations.RepeatedRasterChangesNothing : Prop :=
  ∀ (scr : Screen) (s t : State), exec (.raster scr) s = .next t → exec (.raster scr) t = .next t

/-- R92's corner cases 3 and 4: of the staging frame, a RASTER's result depends only on which samples of the screen's own
columns are black. -/
def Obligations.RasterSeesOnlyBlacknessWithinTheWidth : Prop :=
  ∀ (scr : Screen) (s s' t t' : State),
    s.actW = s'.actW → s.actH = s'.actH → s.actW.toNat = screenWidth scr.toNat → s.actH.toNat = 32 →
    (∀ r c, r < 32 → c < screenWidth scr.toNat → (s.sample r c = 0x00#8 ↔ s'.sample r c = 0x00#8)) →
    exec (.raster scr) s = .next t → exec (.raster scr) s' = .next t' →
    t.status = t'.status ∧ t.expW = t'.expW ∧ t.expH = t'.expH ∧
      ∀ j < pbLen scr.toNat, t.pixelByte scr.toNat j = t'.pixelByte scr.toNat j

/-- R92's corner case 7: an all-white frame gives all bytes 0x00, an all-black frame all bytes 0xFF. -/
def Obligations.UniformFramesGiveUniformBuffers : Prop :=
  ∀ (scr : Screen) (s : State), s.actW.toNat = screenWidth scr.toNat → s.actH.toNat = 32 →
    ∃ t, exec (.raster scr) s = .next t ∧
    ((∀ r c, r < 32 → c < 128 → s.sample r c ≠ 0x00#8) →
      ∀ j < pbLen scr.toNat, t.pixelByte scr.toNat j = 0x00#8) ∧
    ((∀ r c, r < 32 → c < 128 → s.sample r c = 0x00#8) →
      ∀ j < pbLen scr.toNat, t.pixelByte scr.toNat j = 0xFF#8)

/-! ### The scaler -/

/-- R110: for every byte, `encode16` is floor(p·655.35) clamped to 65535, exactly; from 100 on it is 65535, and below 101
the clamp does not act. -/
def Obligations.Encode16IsExactScaling : Prop :=
  ∀ p : Byte, (encode16 p).toNat = min (p.toNat * 13107 / 20) 65535 ∧
    p.toNat * 13107 / 20 = p.toNat * 65535 / 100 ∧
    (p.toNat ≤ 100 → (encode16 p).toNat = p.toNat * 13107 / 20) ∧ (100 ≤ p.toNat → encode16 p = 0xFFFF#16) ∧
    p.toNat * 13107 < 2 ^ 22

/-- R113. -/
def Obligations.Encode16IsMonotonic : Prop :=
  ∀ p q : Byte, p.toNat ≤ q.toNat → (encode16 p).toNat ≤ (encode16 q).toNat

/-- R114: the fixed points, and the step sizes: 655 or 656, and 656 exactly 35 times. -/
def Obligations.Encode16FixedPointsAndSteps : Prop :=
  encode16 0#8 = 0#16 ∧ encode16 50#8 = 32767#16 ∧ encode16 100#8 = 0xFFFF#16 ∧
  (∀ p : Fin 100, (encode16 (BitVec.ofNat 8 (p.val + 1))).toNat = (encode16 (BitVec.ofNat 8 p.val)).toNat + 655 ∨
    (encode16 (BitVec.ofNat 8 (p.val + 1))).toNat = (encode16 (BitVec.ofNat 8 p.val)).toNat + 656) ∧
  ((List.range 100).countP fun p =>
    (encode16 (BitVec.ofNat 8 (p + 1))).toNat = (encode16 (BitVec.ofNat 8 p)).toNat + 656) = 35

/-- R111: a PCT write stores min(d, 100) in its own register and changes nothing else; the other percentages, and with
them the other color values, stay; and a PCT read always returns a legal value, given the invariant of the model. -/
def Obligations.PercentageWritesAreClamped : Prop :=
  (∀ (a : Addr) (d : Byte) (i : Fin 24) (s : State), a.toNat = 0x1800 + i.val →
    ∃ t, exec (.wr a d) s = .next t ∧ t = { s with pct := t.pct } ∧
      t.pct[i].toNat = min d.toNat 100 ∧ (t.dcv i).toNat = min d.toNat 100 * 13107 / 20 ∧
      ∀ k : Fin 24, k ≠ i → t.pct[k] = s.pct[k] ∧ t.dcv k = s.dcv k) ∧
  ∀ (a : Addr) (data : Byte) (s : State), Inv s → 0x1800 ≤ a.toNat → a.toNat ≤ 0x1817 →
    ∃ b, exec (.rd a data) s = .next { s with returned := s.returned ++ [b] } ∧ b.toNat ≤ 100

/-- R112: the two bytes of a device color value, high byte at the lower address, computed from the percentage as it
stands. -/
def Obligations.ColorValuesReadBigEndian : Prop :=
  ∀ (i : Fin 24) (a a' : Addr) (data data' : Byte) (s : State),
    a.toNat = 0x1820 + 2 * i.val → a'.toNat = a.toNat + 1 →
    ∃ t h l, exec (.rd a data) s = .next t ∧
      exec (.rd a' data') t = .next { s with returned := s.returned ++ [h, l] } ∧
      h.toNat * 256 + l.toNat = min (s.pct[i].toNat * 13107 / 20) 65535

/-! ### Who changes what, and runs -/

/-- R27: STATUS as the host reads it: LAST_SCREEN in [6:4], CODE in [1:0] and never 3, the reserved bits 0. -/
def Obligations.StatusReadsItsTwoFields : Prop :=
  ∀ (data : Byte) (s : State), ∃ b, exec (.rd 0x1901#16 data) s = .next { s with returned := s.returned ++ [b] } ∧
    b.extractLsb' 4 3 = s.status.lastScreen ∧ b.extractLsb' 0 2 ≠ 3#2 ∧ b.extractLsb' 2 2 = 0#2 ∧
    b.getLsbD 7 = false ∧
    (b.extractLsb' 0 2 = 0#2 ↔ s.status.code = .ok) ∧ (b.extractLsb' 0 2 = 1#2 ↔ s.status.code = .sizeMismatch) ∧
    (b.extractLsb' 0 2 = 2#2 ↔ s.status.code = .illegalCmd)

/-- R32 with R27: a step changes CODE only through a RASTER, an illegal command or a reset, and LAST_SCREEN and EXP only
through a RASTER or a reset. -/
def Obligations.OnlyCommandsChangeStatus : Prop :=
  ∀ s t : State, step s = .next t →
    (t.status.code ≠ s.status.code → s.pending.head? = some .reset ∨ ∃ tw d, s.pending.head? = some (.transaction tw) ∧
      decodeHT tw = .wr 0x1900#16 d ∧ decodeCmd8 d ≠ .nop) ∧
    (t.status.lastScreen ≠ s.status.lastScreen ∨ t.expW ≠ s.expW ∨ t.expH ≠ s.expH →
      s.pending.head? = some .reset ∨ ∃ tw d scr, s.pending.head? = some (.transaction tw) ∧
        decodeHT tw = .wr 0x1900#16 d ∧ decodeCmd8 d = .raster scr ∧ t.status.lastScreen = scr)

/-- R22 with R92's corner case 1: only a successful `RASTER n` and reset write PB[n]; a `RASTER n` whose dimension check
fails does not. -/
def Obligations.OnlyRasterWritesAPixelBuffer : Prop :=
  ∀ (s t : State) (n : Nat), n < 8 → step s = .next t → s.rewritesNext n = false →
    ∀ j < pbLen n, t.pixelByte n j = s.pixelByte n j

/-- R21: only a write to a sample's own address, or reset, changes the sample; "No operation of the RSU writes it". -/
def Obligations.OnlyItsOwnWriteChangesASample : Prop :=
  ∀ (s t : State) (r c : Nat), r < 32 → c < 128 → step s = .next t → t.sample r c ≠ s.sample r c →
    s.pending.head? = some .reset ∨ ∃ tw a, s.pending.head? = some (.transaction tw) ∧ a.toNat = r * 128 + c ∧
      decodeHT tw = .wr a (t.sample r c)

/-- Section 4 of spec/20_memory.md: PB[s] is a snapshot of SRC taken at the last successful `RASTER s`. However many
steps follow it, it shows the staging frame as it then stood, until the next successful `RASTER s` or a reset: a `RASTER s`
whose check fails may stand among them, and so may writes to SRC, ACT_W and ACT_H. Steps past the end of the queue are idle
(notes/assumptions/2.md). -/
def Obligations.PixelBufferIsASnapshot : Prop :=
  ∀ (scr : Screen) (s t u : State) (k : Nat),
    s.actW.toNat = screenWidth scr.toNat → s.actH.toNat = 32 → exec (.raster scr) s = .next t →
    (∀ i < k, ∀ v, runSteps i t = .next v → v.rewritesNext scr.toNat = false) → runSteps k t = .next u →
    ∀ r x, r < 32 → x < screenWidth scr.toNat →
      (s.sample r x = 0x00#8 ↔
        (u.pixelByte scr.toNat ((3 - r / 8) * screenWidth scr.toNat + x)).getLsbD (7 - r % 8) = true)

/-- R152's steps 2 to 4: from any state, declaring the screen's dimensions, issuing `RASTER s` and reading STATUS returns
CODE 0 with LAST_SCREEN = s, and then PB[s] shows the staging frame. -/
def Obligations.BootSequenceShowsThePixels : Prop :=
  ∀ (scr : Screen) (s : State),
    ∃ u, runSteps 6 (s.issuing ((Pseudo.setdim (screenWidth scr.toNat) 32).expand ++
        (Pseudo.raster scr.toNat).expand ++ Pseudo.rdstat.expand)) = .next u ∧
      u.pending = [] ∧ u.returned = s.returned ++ [BitVec.ofNat 8 (scr.toNat * 16)] ∧
      u.actW.toNat = screenWidth scr.toNat ∧ u.actH.toNat = 32 ∧ u.pct = s.pct ∧
      ∀ p x z, p < 4 → x < screenWidth scr.toNat → z < 8 →
        (u.pixelByte scr.toNat (p * screenWidth scr.toNat + x)).getLsbD z =
          decide (s.sample ((3 - p) * 8 + (7 - z)) x = 0x00#8)

/-- R69: each pseudo-instruction with operands in range expands to transactions in the assembler's form that reach the
place it names. -/
def Obligations.PseudoInstructionsReachTheirPlaces : Prop :=
  (∀ p : Pseudo, p.wf = true → ∀ i ∈ p.expand, i.wf = true) ∧
  (∀ (s : State), (Pseudo.nop).expand.map (fun i => exec i s) = [exec .nop s]) ∧
  (∀ (scr : Screen) (s : State), (Pseudo.raster scr.toNat).expand.map (fun i => exec i s) = [exec (.raster scr) s]) ∧
  (∀ (r c v : Nat) (s : State), (Pseudo.ldpix r c v).wf = true →
    ∃ t, runSteps 1 (s.issuing (Pseudo.ldpix r c v).expand) = .next t ∧ t.sample r c = BitVec.ofNat 8 v) ∧
  (∀ (w h : Nat) (s : State), (Pseudo.setdim w h).wf = true →
    runSteps 4 (s.issuing (Pseudo.setdim w h).expand) =
      .next { s with actW := BitVec.ofNat 16 w, actH := BitVec.ofNat 16 h, pending := [] }) ∧
  (∀ (n c v : Nat) (s : State) (i : Fin 24), (Pseudo.setpct n c v).wf = true → i.val = 3 * n + c →
    ∃ t, runSteps 1 (s.issuing (Pseudo.setpct n c v).expand) = .next t ∧ t.pct[i].toNat = min v 100) ∧
  (∀ (n j : Nat) (s : State), (Pseudo.rdpb n j).wf = true →
    runSteps 1 (s.issuing (Pseudo.rdpb n j).expand) =
      .next { s with returned := s.returned ++ [s.pixelByte n j], pending := [] }) ∧
  (∀ (n c : Nat) (s : State) (i : Fin 24), (Pseudo.rddcv n c).wf = true → i.val = 3 * n + c →
    ∃ h l : Byte, runSteps 2 (s.issuing (Pseudo.rddcv n c).expand) =
      .next { s with returned := s.returned ++ [h, l], pending := [] } ∧
      h.toNat * 256 + l.toNat = (encode16 s.pct[i]).toNat) ∧
  (∀ (n p g k : Nat) (s : State), (Pseudo.rdseg n p g k).wf = true →
    runSteps 1 (s.issuing (Pseudo.rdseg n p g k).expand) =
      .next { s with returned := s.returned ++ [s.segByte n p g k], pending := [] }) ∧
  ∀ s : State, runSteps 1 (s.issuing Pseudo.rdstat.expand) =
    .next { s with returned := s.returned ++ [s.status.byte], pending := [] }

/-- R68, R69 and R71: every `RD`, `WR` and in-range pseudo-instruction, written in the spec's syntax with numerals in
decimal or hex, with or without a comment (and, after an `RD`, an expected byte), assembles to its transactions; `WR 0x1900`
takes any byte; a program assembles line by line; and what the assembler writes is always in its own form, DATA 0 in an `RD`
(R61). How the lines are spaced is notes/assumptions/10.md. -/
def Obligations.AssemblerWritesItsOwnForm : Prop :=
  (∀ (line : List Char) (x : ListingLine), assembleLine line = some x → ∀ i ∈ x.instrs, i.wf = true) ∧
  (∀ (a : Numeral) (e : Option Numeral) (c : Option (List Char)), a.value < 65536 → (∀ v, e = some v → v.value < 256) →
    assembleLine (lineText ['R', 'D'] [a] e c) =
      some { instrs := [.rd (BitVec.ofNat 16 a.value) 0x00#8], expected := e.map fun v => BitVec.ofNat 8 v.value }) ∧
  (∀ (a d : Numeral) (c : Option (List Char)), a.value < 65536 → d.value < 256 →
    assembleLine (lineText ['W', 'R'] [a, d] none c) =
      some { instrs := [.wr (BitVec.ofNat 16 a.value) (BitVec.ofNat 8 d.value)], expected := none }) ∧
  (∀ (a d : Numeral) (c : Option (List Char)), a.value = 0x1900 → d.value < 256 →
    assembleLine (lineText ['W', 'R'] [a, d] none c) =
      some { instrs := [.wr cmdAddr (BitVec.ofNat 8 d.value)], expected := none }) ∧
  (∀ (p : Pseudo) (args : List Numeral) (c : Option (List Char)), p.wf = true → args.map Numeral.value = p.operands →
    assembleLine (lineText p.mnemonic args none c) = some { instrs := p.expand, expected := none }) ∧
  (∀ c : Option (List Char), assembleLine (commentText c) = some { instrs := [], expected := none }) ∧
  (∀ (lines : List (List Char)) (xs : List ListingLine), assemble lines = some xs ↔ lines.map assembleLine = xs.map some) ∧
  assembleLine "WR 0x0F9F, 0 ; SRC[31][31] black".toList = some { instrs := [.wr 0x0F9F#16 0x00#8], expected := none } ∧
  assembleLine "RD 6401 -> 0x10".toList = some { instrs := [.rd 0x1901#16 0x00#8], expected := some 0x10#8 }
end

