-- ==== Sys2Proof/Laws/Assembler.lean ====
section
/-! SUPPORT. What the assembler reads in a written line (spec/30_encoding.md R68): numerals, tokens and operands. -/

set_option maxRecDepth 2000

namespace Sys2Proof.Machine

/-- A character that stands inside a word: no separator, no white space. -/
def plainChar (c : Char) : Bool := c != ',' && c != '-' && c != ';' && !c.isWhitespace

theorem plainChar_decChar : ∀ d, plainChar (decChar d) = true := by decide

theorem plainChar_hexChar : ∀ d, plainChar (hexChar d) = true := by decide

theorem hexDigit?_decChar : ∀ d : Fin 10, hexDigit? (decChar d) = some d.val := by decide

theorem hexDigit?_hexChar : ∀ d : Bool × Fin 16, hexDigit? (hexChar d) = some d.2.val := by decide

/-- Decimal digits read as the number they stand for. -/
theorem digits?_decChar : ∀ (ds : List (Fin 10)) (n : Nat),
    digits? 10 n (ds.map decChar) = some (ds.foldl (fun n e => n * 10 + e.val) n)
  | [], n => rfl
  | d :: ds, n => by simp [digits?, hexDigit?_decChar, d.isLt, digits?_decChar ds]

/-- Hex digits read as the number they stand for. -/
theorem digits?_hexChar : ∀ (ds : List (Bool × Fin 16)) (n : Nat),
    digits? 16 n (ds.map hexChar) = some (ds.foldl (fun n e => n * 16 + e.2.val) n)
  | [], n => rfl
  | d :: ds, n => by simp [digits?, hexDigit?_hexChar, d.2.isLt, digits?_hexChar ds]

theorem decChar_ne_x : ∀ d, decChar d ≠ 'x' := by decide

/-- A written numeral reads as its value (R68). -/
theorem numeral?_text (v : Numeral) : numeral? v.text = some v.value := by
  cases v with
  | dec d ds =>
    have : numeral? (Numeral.dec d ds).text = digits? 10 0 ((d :: ds).map decChar) := by
      cases ds with
      | nil => simp [Numeral.text, numeral?]
      | cons e es =>
        simp only [Numeral.text, List.map]
        unfold numeral?
        split
        · simp_all
        · rename_i h; simp at h; exact absurd h.2.1 (decChar_ne_x e)
        · rename_i h; simp_all
    rw [this, digits?_decChar]; simp [Numeral.value]
  | hex d ds =>
    show digits? 16 0 ((d :: ds).map hexChar) = _
    rw [digits?_hexChar]; simp [Numeral.value]

theorem Numeral.text_plain (v : Numeral) : ∀ c ∈ v.text, plainChar c = true := by
  cases v with
  | dec d ds => simp [Numeral.text, plainChar_decChar]
  | hex d ds =>
    intro c h
    simp only [Numeral.text, List.mem_cons, List.mem_map] at h
    rcases h with rfl | rfl | ⟨e, -, rfl⟩
    · decide
    · decide
    · exact plainChar_hexChar e

theorem Numeral.text_ne_nil (v : Numeral) : v.text ≠ [] := by cases v <;> simp [Numeral.text]

/-- The characters of a word join the word being read. -/
theorem tokens_append_word : ∀ (cs acc rest : List Char), (∀ c ∈ cs, plainChar c = true) →
    tokens acc (cs ++ rest) = tokens (cs.reverse ++ acc) rest
  | [], _, _, _ => rfl
  | c :: cs, acc, rest, h => by
    have hc := h c (by simp)
    simp only [plainChar, Bool.and_eq_true, bne_iff_ne, Bool.not_eq_true'] at hc
    rw [List.cons_append, tokens, hc.2, if_neg (by decide), tokens_append_word cs _ rest (fun d hd => h d (by simp [hd]))]
    · simp
    · rintro ⟨⟩; simp at hc
    · rintro _ ⟨⟩; simp at hc

theorem closeWord_reverse (cs : List Char) (h : cs ≠ []) (ts : List Token) :
    closeWord cs.reverse ts = .word cs :: ts := by
  simp [closeWord, h]

theorem tokens_space (acc rest : List Char) : tokens acc (' ' :: rest) = closeWord acc (tokens [] rest) := by
  rw [tokens]
  · rfl
  all_goals simp

/-- The tokens of what `expectedText` writes. -/
def expectedTokens : Option Numeral → List Token
  | none => []
  | some v => [.arrow, .word v.text]

/-- The tokens of what `operandsText` writes. -/
def operandTokens : List Numeral → List Token
  | [] => []
  | [a] => [.word a.text]
  | a :: b :: rest => .word a.text :: .comma :: operandTokens (b :: rest)

theorem tokens_expectedText (acc : List Char) (e : Option Numeral) (cm : Bool) :
    tokens acc (expectedText e ++ (if cm then [' '] else [])) = closeWord acc (expectedTokens e) := by
  have hend : ∀ acc, tokens acc (if cm then [' '] else []) = closeWord acc [] := by
    intro acc; cases cm
    · simp [tokens]
    · simp [tokens_space, tokens, closeWord]
  cases e with
  | none => simpa [expectedText, expectedTokens] using hend acc
  | some v =>
    simp only [expectedText, List.cons_append, tokens_space]
    congr 1
    rw [tokens, tokens_space, tokens_append_word _ _ _ v.text_plain]
    simp [hend, closeWord_reverse _ v.text_ne_nil, expectedTokens]
    simp [closeWord]

theorem tokens_operandsText : ∀ (args : List Numeral) (acc : List Char) (e : Option Numeral) (cm : Bool),
    tokens acc (operandsText args ++ (expectedText e ++ (if cm then [' '] else []))) =
      closeWord acc (operandTokens args ++ expectedTokens e)
  | [], acc, e, cm => by simpa [operandsText, operandTokens] using tokens_expectedText acc e cm
  | [a], acc, e, cm => by
    simp only [operandsText, List.cons_append, tokens_space, operandTokens]
    rw [tokens_append_word _ _ _ a.text_plain, List.append_nil, tokens_expectedText, closeWord_reverse _ a.text_ne_nil]
    rfl
  | a :: b :: rest, acc, e, cm => by
    simp only [operandsText, List.cons_append, List.append_assoc, tokens_space, operandTokens]
    rw [tokens_append_word _ _ _ a.text_plain, List.append_nil, tokens, tokens_operandsText (b :: rest),
      closeWord_reverse _ a.text_ne_nil]
    rfl

theorem withoutComment_append (cs rest : List Char) (h : ∀ c ∈ cs, c ≠ ';') :
    withoutComment (cs ++ rest) = cs ++ withoutComment rest := by
  rw [withoutComment, List.takeWhile_append_of_pos]
  · rfl
  · intro c hc; simpa using h c hc

theorem Numeral.text_no_semicolon (v : Numeral) : ∀ c ∈ v.text, c ≠ ';' := by
  intro c hc; have := Numeral.text_plain v c hc; simp [plainChar] at this; tauto

theorem operandsText_no_semicolon : ∀ (args : List Numeral), ∀ c ∈ operandsText args, c ≠ ';'
  | [], _, h => by simp [operandsText] at h
  | [a], c, h => by
    simp [operandsText] at h
    rcases h with rfl | h
    · decide
    · exact Numeral.text_no_semicolon a c h
  | a :: b :: rest, c, h => by
    simp only [operandsText, List.mem_cons, List.mem_append] at h
    rcases h with rfl | h | rfl | h
    · decide
    · exact Numeral.text_no_semicolon a c h
    · decide
    · exact operandsText_no_semicolon (b :: rest) c h

theorem expectedText_no_semicolon (e : Option Numeral) : ∀ c ∈ expectedText e, c ≠ ';' := by
  cases e with
  | none => simp [expectedText]
  | some v =>
    intro c h
    simp [expectedText] at h
    rcases h with rfl | rfl | rfl | rfl | h
    any_goals decide
    exact Numeral.text_no_semicolon v c h

theorem withoutComment_commentText (c : Option (List Char)) :
    withoutComment (commentText c) = if c.isSome then [' '] else [] := by
  cases c <;> simp [commentText, withoutComment]

/-- A written line reads as its mnemonic, its operands and its expected byte; its comment is dropped (R68). -/
theorem tokens_lineText (m : List Char) (args : List Numeral) (e : Option Numeral) (c : Option (List Char))
    (hm : ∀ x ∈ m, plainChar x = true) (hne : m ≠ []) :
    tokens [] (withoutComment (lineText m args e c)) = .word m :: (operandTokens args ++ expectedTokens e) := by
  unfold lineText
  rw [List.append_assoc, List.append_assoc, withoutComment_append, withoutComment_append _ _ (operandsText_no_semicolon args),
    withoutComment_append _ _ (expectedText_no_semicolon e), withoutComment_commentText,
    tokens_append_word _ _ _ hm, List.append_nil, tokens_operandsText, closeWord_reverse _ hne]
  intro c hc; have := hm c hc; simp [plainChar] at this; tauto

/-- One operand and an expected byte read as their values. -/
theorem operands?_one (a : Numeral) (e : Option Numeral) :
    operands? (operandTokens [a] ++ expectedTokens e) = some ([a.value], e.map Numeral.value) := by
  cases e <;> simp [operandTokens, expectedTokens, operands?, numeral?_text]

/-- Operands without an expected byte read as their values. -/
theorem operands?_operandTokens : ∀ (args : List Numeral),
    operands? (operandTokens args) = some (args.map Numeral.value, none)
  | [] => by simp [operandTokens, operands?]
  | [a] => by simp [operandTokens, operands?, numeral?_text]
  | a :: b :: rest => by
    have ih := operands?_operandTokens (b :: rest)
    obtain ⟨t, ht⟩ : ∃ t, operandTokens (b :: rest) = .word b.text :: t := by cases rest <;> simp [operandTokens]
    rw [operandTokens, ht]; rw [ht] at ih
    simp [operands?, numeral?_text, ih]

/-- A pseudo-instruction in range is read by its name and operands (R69). -/
theorem statement?_pseudo (p : Pseudo) (h : p.wf = true) : statement? p.mnemonic p.operands = some p.expand := by
  cases p <;> simp only [statement?, Pseudo.mnemonic, Pseudo.operands, expandChecked, h, if_true] <;> rfl

end Sys2Proof.Machine
end

