-- ==== Sys2Proof/Laws/Encoding.lean ====
section
/-! SUPPORT. The fields of an encoded transaction word and of a command byte are the ones it was made of. -/

namespace Sys2Proof

theorem encodeHT_toNat (w : BitVec 1) (a : Addr) (d : Byte) :
    (encodeHT w a d).toNat = w.toNat * 2 ^ 24 + a.toNat * 2 ^ 8 + d.toNat := by
  have h₁ : (encodeHT w a d).toNat = ((w.toNat <<< 16 ||| a.toNat) <<< 8) ||| d.toNat := by
    unfold encodeHT
    rw [BitVec.toNat_append, BitVec.toNat_append]
  rw [h₁, ← Nat.shiftLeft_add_eq_or_of_lt a.isLt, ← Nat.shiftLeft_add_eq_or_of_lt d.isLt]
  simp only [Nat.shiftLeft_eq]
  omega

theorem encodeHT_write (w : BitVec 1) (a : Addr) (d : Byte) : (encodeHT w a d).extractLsb' 24 1 = w := by
  refine BitVec.eq_of_toNat_eq ?_
  have := a.isLt
  have := d.isLt
  have := w.isLt
  simp only [BitVec.extractLsb'_toNat, encodeHT_toNat, Nat.shiftRight_eq_div_pow]
  omega

theorem encodeHT_addr (w : BitVec 1) (a : Addr) (d : Byte) : (encodeHT w a d).extractLsb' 8 16 = a := by
  refine BitVec.eq_of_toNat_eq ?_
  have := a.isLt
  have := d.isLt
  have := w.isLt
  simp only [BitVec.extractLsb'_toNat, encodeHT_toNat, Nat.shiftRight_eq_div_pow]
  omega

theorem encodeHT_data (w : BitVec 1) (a : Addr) (d : Byte) : (encodeHT w a d).extractLsb' 0 8 = d := by
  refine BitVec.eq_of_toNat_eq ?_
  have := a.isLt
  have := d.isLt
  have := w.isLt
  simp only [BitVec.extractLsb'_toNat, encodeHT_toNat, Nat.shiftRight_eq_div_pow]
  omega

/-- A transaction word is made of its three fields. -/
theorem encodeHT_fields (tw : TransactionWord) :
    encodeHT (tw.extractLsb' 24 1) (tw.extractLsb' 8 16) (tw.extractLsb' 0 8) = tw := by
  refine BitVec.eq_of_toNat_eq ?_
  have := tw.isLt
  simp only [encodeHT_toNat, BitVec.extractLsb'_toNat, Nat.shiftRight_eq_div_pow]
  omega

@[simp] theorem decodeHT_encodeHT_read (a : Addr) (d : Byte) : decodeHT (encodeHT 0#1 a d) = .rd a d := by
  simp [decodeHT, encodeHT_write, encodeHT_addr, encodeHT_data]

@[simp] theorem decodeHT_encodeHT_write (a : Addr) (d : Byte) : decodeHT (encodeHT 1#1 a d) = .wr a d := by
  simp [decodeHT, encodeHT_write, encodeHT_addr, encodeHT_data]

/-- What the command decoder can answer. -/
theorem decodeCmd8_cases (d : Byte) :
    (d = 0x00#8 ∧ decodeCmd8 d = .nop) ∨
    (∃ scr : Screen, d = 0b00010#5 ++ scr ∧ decodeCmd8 d = .raster scr) ∨
    (d ≠ 0x00#8 ∧ (∀ scr : Screen, d ≠ 0b00010#5 ++ scr) ∧ decodeCmd8 d = .illegal) := by
  revert d
  decide

theorem decodeCmd8_raster (scr : Screen) : decodeCmd8 (0b00010#5 ++ scr) = .raster scr := by
  revert scr
  decide

end Sys2Proof
end

