-- ==== Sys2Proof/Laws/State.lean ====
section
/-! SUPPORT. One lemma per field per named update of State, true by rfl: no later proof unfolds a record update. -/

namespace Sys2Proof.Machine

@[simp] theorem State.storeBlock_mem (s : State) (a : Nat) (bs : List Byte) :
    (s.storeBlock a bs).mem = s.mem.writeBlock a bs := rfl
@[simp] theorem State.storeBlock_pct (s : State) (a : Nat) (bs : List Byte) : (s.storeBlock a bs).pct = s.pct := rfl
@[simp] theorem State.storeBlock_actW (s : State) (a : Nat) (bs : List Byte) :
    (s.storeBlock a bs).actW = s.actW := rfl
@[simp] theorem State.storeBlock_actH (s : State) (a : Nat) (bs : List Byte) :
    (s.storeBlock a bs).actH = s.actH := rfl
@[simp] theorem State.storeBlock_expW (s : State) (a : Nat) (bs : List Byte) :
    (s.storeBlock a bs).expW = s.expW := rfl
@[simp] theorem State.storeBlock_expH (s : State) (a : Nat) (bs : List Byte) :
    (s.storeBlock a bs).expH = s.expH := rfl
@[simp] theorem State.storeBlock_status (s : State) (a : Nat) (bs : List Byte) :
    (s.storeBlock a bs).status = s.status := rfl
@[simp] theorem State.storeBlock_pending (s : State) (a : Nat) (bs : List Byte) :
    (s.storeBlock a bs).pending = s.pending := rfl
@[simp] theorem State.storeBlock_returned (s : State) (a : Nat) (bs : List Byte) :
    (s.storeBlock a bs).returned = s.returned := rfl
@[simp] theorem State.storeBlock_epoch (s : State) (a : Nat) (bs : List Byte) :
    (s.storeBlock a bs).epoch = s.epoch := rfl

@[simp] theorem State.storeByte_mem (s : State) (a : Nat) (b : Byte) :
    (s.storeByte a b).mem = s.mem.writeBlock a [b] := rfl
@[simp] theorem State.storeByte_pct (s : State) (a : Nat) (b : Byte) : (s.storeByte a b).pct = s.pct := rfl
@[simp] theorem State.storeByte_actW (s : State) (a : Nat) (b : Byte) : (s.storeByte a b).actW = s.actW := rfl
@[simp] theorem State.storeByte_actH (s : State) (a : Nat) (b : Byte) : (s.storeByte a b).actH = s.actH := rfl
@[simp] theorem State.storeByte_expW (s : State) (a : Nat) (b : Byte) : (s.storeByte a b).expW = s.expW := rfl
@[simp] theorem State.storeByte_expH (s : State) (a : Nat) (b : Byte) : (s.storeByte a b).expH = s.expH := rfl
@[simp] theorem State.storeByte_status (s : State) (a : Nat) (b : Byte) : (s.storeByte a b).status = s.status := rfl
@[simp] theorem State.storeByte_pending (s : State) (a : Nat) (b : Byte) :
    (s.storeByte a b).pending = s.pending := rfl
@[simp] theorem State.storeByte_returned (s : State) (a : Nat) (b : Byte) :
    (s.storeByte a b).returned = s.returned := rfl
@[simp] theorem State.storeByte_epoch (s : State) (a : Nat) (b : Byte) : (s.storeByte a b).epoch = s.epoch := rfl

@[simp] theorem State.setPct_mem (s : State) (i : Fin 24) (b : Byte) : (s.setPct i b).mem = s.mem := rfl
@[simp] theorem State.setPct_pct (s : State) (i : Fin 24) (b : Byte) : (s.setPct i b).pct = s.pct.set i b := rfl
@[simp] theorem State.setPct_actW (s : State) (i : Fin 24) (b : Byte) : (s.setPct i b).actW = s.actW := rfl
@[simp] theorem State.setPct_actH (s : State) (i : Fin 24) (b : Byte) : (s.setPct i b).actH = s.actH := rfl
@[simp] theorem State.setPct_expW (s : State) (i : Fin 24) (b : Byte) : (s.setPct i b).expW = s.expW := rfl
@[simp] theorem State.setPct_expH (s : State) (i : Fin 24) (b : Byte) : (s.setPct i b).expH = s.expH := rfl
@[simp] theorem State.setPct_status (s : State) (i : Fin 24) (b : Byte) : (s.setPct i b).status = s.status := rfl
@[simp] theorem State.setPct_pending (s : State) (i : Fin 24) (b : Byte) : (s.setPct i b).pending = s.pending := rfl
@[simp] theorem State.setPct_returned (s : State) (i : Fin 24) (b : Byte) :
    (s.setPct i b).returned = s.returned := rfl
@[simp] theorem State.setPct_epoch (s : State) (i : Fin 24) (b : Byte) : (s.setPct i b).epoch = s.epoch := rfl

@[simp] theorem State.setActW_mem (s : State) (v : Word) : (s.setActW v).mem = s.mem := rfl
@[simp] theorem State.setActW_pct (s : State) (v : Word) : (s.setActW v).pct = s.pct := rfl
@[simp] theorem State.setActW_actW (s : State) (v : Word) : (s.setActW v).actW = v := rfl
@[simp] theorem State.setActW_actH (s : State) (v : Word) : (s.setActW v).actH = s.actH := rfl
@[simp] theorem State.setActW_expW (s : State) (v : Word) : (s.setActW v).expW = s.expW := rfl
@[simp] theorem State.setActW_expH (s : State) (v : Word) : (s.setActW v).expH = s.expH := rfl
@[simp] theorem State.setActW_status (s : State) (v : Word) : (s.setActW v).status = s.status := rfl
@[simp] theorem State.setActW_pending (s : State) (v : Word) : (s.setActW v).pending = s.pending := rfl
@[simp] theorem State.setActW_returned (s : State) (v : Word) : (s.setActW v).returned = s.returned := rfl
@[simp] theorem State.setActW_epoch (s : State) (v : Word) : (s.setActW v).epoch = s.epoch := rfl

@[simp] theorem State.setActH_mem (s : State) (v : Word) : (s.setActH v).mem = s.mem := rfl
@[simp] theorem State.setActH_pct (s : State) (v : Word) : (s.setActH v).pct = s.pct := rfl
@[simp] theorem State.setActH_actW (s : State) (v : Word) : (s.setActH v).actW = s.actW := rfl
@[simp] theorem State.setActH_actH (s : State) (v : Word) : (s.setActH v).actH = v := rfl
@[simp] theorem State.setActH_expW (s : State) (v : Word) : (s.setActH v).expW = s.expW := rfl
@[simp] theorem State.setActH_expH (s : State) (v : Word) : (s.setActH v).expH = s.expH := rfl
@[simp] theorem State.setActH_status (s : State) (v : Word) : (s.setActH v).status = s.status := rfl
@[simp] theorem State.setActH_pending (s : State) (v : Word) : (s.setActH v).pending = s.pending := rfl
@[simp] theorem State.setActH_returned (s : State) (v : Word) : (s.setActH v).returned = s.returned := rfl
@[simp] theorem State.setActH_epoch (s : State) (v : Word) : (s.setActH v).epoch = s.epoch := rfl

@[simp] theorem State.reportCode_mem (s : State) (c : Code) : (s.reportCode c).mem = s.mem := rfl
@[simp] theorem State.reportCode_pct (s : State) (c : Code) : (s.reportCode c).pct = s.pct := rfl
@[simp] theorem State.reportCode_actW (s : State) (c : Code) : (s.reportCode c).actW = s.actW := rfl
@[simp] theorem State.reportCode_actH (s : State) (c : Code) : (s.reportCode c).actH = s.actH := rfl
@[simp] theorem State.reportCode_expW (s : State) (c : Code) : (s.reportCode c).expW = s.expW := rfl
@[simp] theorem State.reportCode_expH (s : State) (c : Code) : (s.reportCode c).expH = s.expH := rfl
@[simp] theorem State.reportCode_status (s : State) (c : Code) :
    (s.reportCode c).status = { s.status with code := c } := rfl
@[simp] theorem State.reportCode_pending (s : State) (c : Code) : (s.reportCode c).pending = s.pending := rfl
@[simp] theorem State.reportCode_returned (s : State) (c : Code) : (s.reportCode c).returned = s.returned := rfl
@[simp] theorem State.reportCode_epoch (s : State) (c : Code) : (s.reportCode c).epoch = s.epoch := rfl

@[simp] theorem State.recordRaster_mem (s : State) (scr : Screen) (w h : Byte) :
    (s.recordRaster scr w h).mem = s.mem := rfl
@[simp] theorem State.recordRaster_pct (s : State) (scr : Screen) (w h : Byte) :
    (s.recordRaster scr w h).pct = s.pct := rfl
@[simp] theorem State.recordRaster_actW (s : State) (scr : Screen) (w h : Byte) :
    (s.recordRaster scr w h).actW = s.actW := rfl
@[simp] theorem State.recordRaster_actH (s : State) (scr : Screen) (w h : Byte) :
    (s.recordRaster scr w h).actH = s.actH := rfl
@[simp] theorem State.recordRaster_expW (s : State) (scr : Screen) (w h : Byte) :
    (s.recordRaster scr w h).expW = w := rfl
@[simp] theorem State.recordRaster_expH (s : State) (scr : Screen) (w h : Byte) :
    (s.recordRaster scr w h).expH = h := rfl
@[simp] theorem State.recordRaster_status (s : State) (scr : Screen) (w h : Byte) :
    (s.recordRaster scr w h).status = { s.status with lastScreen := scr } := rfl
@[simp] theorem State.recordRaster_pending (s : State) (scr : Screen) (w h : Byte) :
    (s.recordRaster scr w h).pending = s.pending := rfl
@[simp] theorem State.recordRaster_returned (s : State) (scr : Screen) (w h : Byte) :
    (s.recordRaster scr w h).returned = s.returned := rfl
@[simp] theorem State.recordRaster_epoch (s : State) (scr : Screen) (w h : Byte) :
    (s.recordRaster scr w h).epoch = s.epoch := rfl

@[simp] theorem State.returnByte_mem (s : State) (b : Byte) : (s.returnByte b).mem = s.mem := rfl
@[simp] theorem State.returnByte_pct (s : State) (b : Byte) : (s.returnByte b).pct = s.pct := rfl
@[simp] theorem State.returnByte_actW (s : State) (b : Byte) : (s.returnByte b).actW = s.actW := rfl
@[simp] theorem State.returnByte_actH (s : State) (b : Byte) : (s.returnByte b).actH = s.actH := rfl
@[simp] theorem State.returnByte_expW (s : State) (b : Byte) : (s.returnByte b).expW = s.expW := rfl
@[simp] theorem State.returnByte_expH (s : State) (b : Byte) : (s.returnByte b).expH = s.expH := rfl
@[simp] theorem State.returnByte_status (s : State) (b : Byte) : (s.returnByte b).status = s.status := rfl
@[simp] theorem State.returnByte_pending (s : State) (b : Byte) : (s.returnByte b).pending = s.pending := rfl
@[simp] theorem State.returnByte_returned (s : State) (b : Byte) :
    (s.returnByte b).returned = s.returned ++ [b] := rfl
@[simp] theorem State.returnByte_epoch (s : State) (b : Byte) : (s.returnByte b).epoch = s.epoch := rfl

@[simp] theorem State.issueNext_mem (s : State) (tw : TransactionWord) : (s.issueNext tw).mem = s.mem := rfl
@[simp] theorem State.issueNext_pct (s : State) (tw : TransactionWord) : (s.issueNext tw).pct = s.pct := rfl
@[simp] theorem State.issueNext_actW (s : State) (tw : TransactionWord) : (s.issueNext tw).actW = s.actW := rfl
@[simp] theorem State.issueNext_actH (s : State) (tw : TransactionWord) : (s.issueNext tw).actH = s.actH := rfl
@[simp] theorem State.issueNext_expW (s : State) (tw : TransactionWord) : (s.issueNext tw).expW = s.expW := rfl
@[simp] theorem State.issueNext_expH (s : State) (tw : TransactionWord) : (s.issueNext tw).expH = s.expH := rfl
@[simp] theorem State.issueNext_status (s : State) (tw : TransactionWord) : (s.issueNext tw).status = s.status := rfl
@[simp] theorem State.issueNext_pending (s : State) (tw : TransactionWord) :
    (s.issueNext tw).pending = .transaction tw :: s.pending := rfl
@[simp] theorem State.issueNext_returned (s : State) (tw : TransactionWord) :
    (s.issueNext tw).returned = s.returned := rfl
@[simp] theorem State.issueNext_epoch (s : State) (tw : TransactionWord) : (s.issueNext tw).epoch = s.epoch := rfl

@[simp] theorem State.takeReset_mem (s : State) : s.takeReset.mem = [] := rfl
@[simp] theorem State.takeReset_pct (s : State) : s.takeReset.pct = Vector.replicate 24 0x00#8 := rfl
@[simp] theorem State.takeReset_actW (s : State) : s.takeReset.actW = 0#16 := rfl
@[simp] theorem State.takeReset_actH (s : State) : s.takeReset.actH = 0#16 := rfl
@[simp] theorem State.takeReset_expW (s : State) : s.takeReset.expW = 0#8 := rfl
@[simp] theorem State.takeReset_expH (s : State) : s.takeReset.expH = 0#8 := rfl
@[simp] theorem State.takeReset_status (s : State) : s.takeReset.status = { code := .ok, lastScreen := 0#3 } := rfl
@[simp] theorem State.takeReset_pending (s : State) : s.takeReset.pending = s.pending := rfl
@[simp] theorem State.takeReset_returned (s : State) : s.takeReset.returned = s.returned := rfl
@[simp] theorem State.takeReset_epoch (s : State) : s.takeReset.epoch = s.epoch + 1 := rfl

end Sys2Proof.Machine
end

