-- ==== Sys2Proof/Laws/Memory.lean ====
section
/-! SUPPORT. What the frame memories' operations do: a write sets its own addresses and leaves every other one alone, for
every list, canonical or not; and it keeps the canonical form. -/

namespace Sys2Proof.Machine

@[simp] theorem Memory.read?_nil (a : Nat) : Memory.read? [] a = none := rfl

@[simp] theorem Memory.read?_cons (c : Host.Cell) (m : Memory) (a : Nat) :
    Memory.read? (c :: m) a = if c.1 = a then some c.2 else Memory.read? m a := rfl

theorem Memory.read?_append (m m' : Memory) (a : Nat) :
    Memory.read? (m ++ m') a = (Memory.read? m a).or (Memory.read? m' a) := by
  induction m with
  | nil => rfl
  | cons c m ih =>
    simp only [List.cons_append, Memory.read?_cons, ih]
    split <;> simp

theorem Memory.read?_filter (p : Nat → Bool) (m : Memory) (a : Nat) :
    Memory.read? (m.filter (fun c => p c.1)) a = if p a then Memory.read? m a else none := by
  induction m with
  | nil => simp
  | cons c m ih =>
    by_cases hc : p c.1 = true
    · rw [List.filter_cons_of_pos (by simpa using hc), Memory.read?_cons, Memory.read?_cons, ih]
      by_cases h : c.1 = a
      · subst h; simp [hc]
      · simp [h]
    · rw [List.filter_cons_of_neg (by simpa using hc), ih, Memory.read?_cons]
      by_cases h : c.1 = a
      · subst h; simp [hc]
      · simp [h]

theorem Memory.read?_cells (a : Nat) (bs : List Byte) (b : Nat) :
    Memory.read? (Memory.cells a bs) b = if a ≤ b then bs[b - a]? else none := by
  induction bs generalizing a with
  | nil => simp [Memory.cells]
  | cons v bs ih =>
    simp only [Memory.cells, Memory.read?_cons, ih]
    by_cases h : a = b
    · subst h; simp
    · by_cases h' : a + 1 ≤ b
      · obtain ⟨k, rfl⟩ : ∃ k, b = a + 1 + k := ⟨b - (a + 1), by omega⟩
        simp [h, show a ≤ a + 1 + k by omega, show a + 1 + k - a = k + 1 by omega]
      · simp [h, h', show ¬ a ≤ b by omega]

/-- All that a block write does to reads. -/
theorem Memory.read?_writeBlock (m : Memory) (a : Nat) (bs : List Byte) (b : Nat) :
    (m.writeBlock a bs).read? b = if a ≤ b ∧ b < a + bs.length then bs[b - a]? else m.read? b := by
  unfold Memory.writeBlock
  rw [Memory.read?_append, Memory.read?_append, Memory.read?_filter (fun k => decide (k < a)),
    Memory.read?_filter (fun k => decide (a + bs.length ≤ k)), Memory.read?_cells]
  by_cases h₁ : b < a
  · simp [h₁, show ¬ a ≤ b by omega, show ¬ a + bs.length ≤ b by omega]
  · by_cases h₂ : b < a + bs.length
    · simp [h₁, h₂, show a ≤ b by omega, show ¬ a + bs.length ≤ b by omega]
    · have h₃ : bs[b - a]? = none := by simp; omega
      simp [h₁, h₂, h₃, show a + bs.length ≤ b by omega]

theorem Memory.mem_cells {a : Nat} {bs : List Byte} {c : Host.Cell} (h : c ∈ Memory.cells a bs) :
    a ≤ c.1 ∧ c.1 < a + bs.length := by
  induction bs generalizing a with
  | nil => simp [Memory.cells] at h
  | cons v bs ih =>
    simp only [Memory.cells, List.mem_cons] at h
    rcases h with rfl | h
    · simp
    · have := ih h
      simp only [List.length_cons]
      omega

theorem Memory.cells_rising (a : Nat) (bs : List Byte) :
    (Memory.cells a bs).Pairwise (fun x y => x.1 < y.1) := by
  induction bs generalizing a with
  | nil => simp [Memory.cells]
  | cons v bs ih =>
    refine List.Pairwise.cons (fun c hc => ?_) (ih (a + 1))
    have := Memory.mem_cells hc
    show a < c.1
    omega

/-- Reset's memory lists nothing, and so is canonical. -/
theorem Memory.wf_nil : Memory.wf [] := by simp [Memory.wf]

/-- A block write within SRC and PB keeps the canonical form. -/
theorem Memory.wf_writeBlock {m : Memory} (hm : m.wf) {a : Nat} {bs : List Byte}
    (h : a + bs.length ≤ Config.storageEnd) : (m.writeBlock a bs).wf := by
  obtain ⟨hr, hb⟩ := hm
  unfold Memory.writeBlock
  refine ⟨?_, ?_⟩
  · refine List.pairwise_append.2 ⟨List.pairwise_append.2 ⟨hr.filter _, Memory.cells_rising a bs, ?_⟩,
      hr.filter _, ?_⟩
    · intro x hx y hy
      have hx' : x.1 < a := by simpa using (List.mem_filter.1 hx).2
      have := Memory.mem_cells hy
      omega
    · intro x hx y hy
      have hy' : a + bs.length ≤ y.1 := by simpa using (List.mem_filter.1 hy).2
      rcases List.mem_append.1 hx with hx | hx
      · have hx' : x.1 < a := by simpa using (List.mem_filter.1 hx).2
        omega
      · have := Memory.mem_cells hx
        omega
  · intro c hc
    rcases List.mem_append.1 hc with hc | hc
    · rcases List.mem_append.1 hc with hc | hc
      · exact hb c (List.mem_filter.1 hc).1
      · have := Memory.mem_cells hc
        omega
    · exact hb c (List.mem_filter.1 hc).1

theorem Memory.read?_eq_none_of_lt {m : Memory} {a : Nat} (h : ∀ c ∈ m, a < c.1) : m.read? a = none := by
  induction m with
  | nil => rfl
  | cons c m ih =>
    have hc := h c (List.mem_cons_self ..)
    rw [Memory.read?_cons, if_neg (by omega)]
    exact ih fun c hc => h c (List.mem_cons_of_mem _ hc)

/-- The canonical form is canonical: memories that read the same are the same data. -/
theorem Memory.ext_of_rising {m m' : Memory} (hm : m.Pairwise (fun x y => x.1 < y.1))
    (hm' : m'.Pairwise (fun x y => x.1 < y.1)) (h : ∀ a, m.read? a = m'.read? a) : m = m' := by
  induction m generalizing m' with
  | nil =>
    cases m' with
    | nil => rfl
    | cons c' m' => have := h c'.1; simp at this
  | cons c m ih =>
    cases m' with
    | nil => have := h c.1; simp at this
    | cons c' m' =>
      rw [List.pairwise_cons] at hm hm'
      have hlow := Memory.read?_eq_none_of_lt (m := m) (a := c.1) hm.1
      have hlow' := Memory.read?_eq_none_of_lt (m := m') (a := c'.1) hm'.1
      have hkey : c.1 = c'.1 := by
        rcases Nat.lt_trichotomy c.1 c'.1 with hlt | heq | hgt
        · have := h c.1
          rw [Memory.read?_cons, if_pos rfl, Memory.read?_cons, if_neg (by omega),
            Memory.read?_eq_none_of_lt (fun d hd => by have := hm'.1 d hd; omega)] at this
          cases this
        · exact heq
        · have := h c'.1
          rw [Memory.read?_cons, if_neg (by omega), Memory.read?_cons, if_pos rfl,
            Memory.read?_eq_none_of_lt (fun d hd => by have := hm.1 d hd; omega)] at this
          cases this
      have hval : c.2 = c'.2 := by
        have := h c.1
        rw [Memory.read?_cons, if_pos rfl, Memory.read?_cons, if_pos hkey.symm] at this
        exact Option.some.inj this
      have htail : ∀ a, Memory.read? m a = Memory.read? m' a := by
        intro a
        by_cases ha : c.1 = a
        · rw [← ha, hlow, hkey, hlow']
        · have := h a
          rwa [Memory.read?_cons, if_neg ha, Memory.read?_cons, if_neg (by omega)] at this
      rw [ih hm.2 hm'.2 htail, Prod.ext hkey hval]

/-- Writing the same block twice is writing it once, as data. -/
theorem Memory.writeBlock_writeBlock (m : Memory) (a : Nat) (bs : List Byte) :
    (m.writeBlock a bs).writeBlock a bs = m.writeBlock a bs := by
  have hlow : (Memory.cells a bs).filter (fun c => c.1 < a) = [] := by
    refine List.filter_eq_nil_iff.2 (fun c hc => ?_)
    have := Memory.mem_cells hc
    simp; omega
  have hhigh : (Memory.cells a bs).filter (fun c => a + bs.length ≤ c.1) = [] := by
    refine List.filter_eq_nil_iff.2 (fun c hc => ?_)
    have := Memory.mem_cells hc
    simp; omega
  have hcross : ∀ c : Host.Cell, ¬ (c.1 < a ∧ a + bs.length ≤ c.1) := fun c h => by omega
  simp only [Memory.writeBlock, List.filter_append, List.filter_filter, hlow, hhigh]
  have h₁ : m.filter (fun c => decide (c.1 < a) && decide (a + bs.length ≤ c.1)) = [] :=
    List.filter_eq_nil_iff.2 (fun c _ => by simp; omega)
  have h₂ : m.filter (fun c => decide (a + bs.length ≤ c.1) && decide (c.1 < a)) = [] :=
    List.filter_eq_nil_iff.2 (fun c _ => by simp; omega)
  simp [h₁, h₂]

/-- What a stored block reads as, and that every other address reads as before. -/
theorem State.stored_storeBlock (s : State) (a : Nat) (bs : List Byte) (b : Nat) :
    (s.storeBlock a bs).stored b = if h : a ≤ b ∧ b < a + bs.length then bs[b - a]'(by omega) else s.stored b := by
  unfold State.stored
  rw [State.storeBlock_mem, State.storeBlock_epoch, Memory.read?_writeBlock]
  split
  next h => rw [List.getElem?_eq_getElem (by omega)]; rfl
  next => rfl

/-- What a stored byte reads as, and that every other address reads as before. -/
theorem State.stored_storeByte (s : State) (a : Nat) (v : Byte) (b : Nat) :
    (s.storeByte a v).stored b = if b = a then v else s.stored b := by
  unfold State.storeByte
  rw [State.stored_storeBlock]
  by_cases h : b = a
  · subst h; simp
  · rw [dif_neg (by simp only [List.length_singleton]; omega), if_neg h]

/-- Reads of the frame memories depend on the memory and the epoch alone. -/
theorem State.stored_congr {s t : State} (hm : t.mem = s.mem) (he : t.epoch = s.epoch) (a : Nat) :
    t.stored a = s.stored a := by
  simp [State.stored, hm, he]

end Sys2Proof.Machine
end

