-- ==== Sys2Proof/Laws/Operands.lean ====
section
/-! SUPPORT. The address map: what each range decodes to, and that the named places of SRC and PB are distinct addresses
of the storage. -/

namespace Sys2Proof.Machine

theorem screenWidth_cases (n : Nat) : screenWidth n = 128 ∧ n = 0 ∨ screenWidth n = 32 ∧ n ≠ 0 := by
  unfold screenWidth
  split <;> simp_all

@[simp] theorem screenWidth_zero : screenWidth 0 = 128 := rfl

theorem screenWidth_of_ne_zero {n : Nat} (h : n ≠ 0) : screenWidth n = 32 := by simp [screenWidth, h]

theorem screenWidth_pos (n : Nat) : 0 < screenWidth n := by
  rcases screenWidth_cases n with ⟨h, -⟩ | ⟨h, -⟩ <;> omega

theorem pbLen_cases (n : Nat) : pbLen n = 512 ∧ n = 0 ∨ pbLen n = 128 ∧ n ≠ 0 := by
  unfold pbLen Config.nPlanes
  rcases screenWidth_cases n with ⟨h, h'⟩ | ⟨h, h'⟩ <;> simp [h, h']

theorem pbLen_eq (n : Nat) : pbLen n = 4 * screenWidth n := rfl

/-- The index of plane `p`, column `x` is one of the PixelBuffer's. -/
theorem plane_index_lt {n p x : Nat} (hp : p < 4) (hx : x < screenWidth n) : p * screenWidth n + x < pbLen n := by
  rw [pbLen_eq]
  rcases screenWidth_cases n with ⟨h, -⟩ | ⟨h, -⟩ <;> rw [h] at hx ⊢ <;> omega

theorem pbAddr_eq (n j : Nat) : pbAddr n j = pbAddr n 0 + j := by
  unfold pbAddr
  split <;> omega

/-- PixelBuffers lie past SRC and within the storage. -/
theorem pbAddr_bounds {n j : Nat} (hn : n < 8) (hj : j < pbLen n) : 0x1000 ≤ pbAddr n j ∧ pbAddr n j < 0x1580 := by
  unfold pbAddr
  rcases pbLen_cases n with ⟨h, h'⟩ | ⟨h, h'⟩
  · subst h'; simp; omega
  · rw [if_neg h']; omega

/-- A whole PixelBuffer fits the storage. -/
theorem pbAddr_block_le {n : Nat} (hn : n < 8) : pbAddr n 0 + pbLen n ≤ Config.storageEnd := by
  unfold pbAddr Config.storageEnd
  rcases pbLen_cases n with ⟨h, h'⟩ | ⟨h, h'⟩
  · subst h'; simp; omega
  · rw [if_neg h']; omega

/-- Different places of the PixelBuffers are different addresses. -/
theorem pbAddr_inj {n n' j j' : Nat} (hn : n < 8) (hn' : n' < 8) (hj : j < pbLen n) (hj' : j' < pbLen n')
    (h : pbAddr n j = pbAddr n' j') : n = n' ∧ j = j' := by
  unfold pbAddr at h
  rcases pbLen_cases n with ⟨h₁, h₂⟩ | ⟨h₁, h₂⟩ <;> rcases pbLen_cases n' with ⟨h₃, h₄⟩ | ⟨h₃, h₄⟩ <;>
    simp [h₂, h₄] at h <;> omega

theorem srcAddr_lt {r c : Nat} (hr : r < 32) (hc : c < 128) : srcAddr r c < 0x1000 := by
  unfold srcAddr Config.srcCols
  omega

theorem srcAddr_div_mod (a : Nat) : srcAddr (a / 128) (a % 128) = a := by
  unfold srcAddr Config.srcCols
  omega

theorem srcAddr_inj {r r' c c' : Nat} (hc : c < 128) (hc' : c' < 128) (h : srcAddr r c = srcAddr r' c') :
    r = r' ∧ c = c' := by
  unfold srcAddr Config.srcCols at h
  omega

theorem decodeAddr_src {a : Addr} (h : a.toNat ≤ 0x0FFF) : decodeAddr a = .src (a.toNat / 128) (a.toNat % 128) := by
  simp [decodeAddr, h]

theorem decodeAddr_pb0 {a : Addr} (h : 0x1000 ≤ a.toNat) (h' : a.toNat ≤ 0x11FF) :
    decodeAddr a = .pb 0 (a.toNat - 0x1000) := by
  simp [decodeAddr, h', show ¬ a.toNat ≤ 0x0FFF by omega]

theorem decodeAddr_pb {a : Addr} (h : 0x1200 ≤ a.toNat) (h' : a.toNat ≤ 0x157F) :
    decodeAddr a = .pb (1 + (a.toNat - 0x1200) / 128) ((a.toNat - 0x1200) % 128) := by
  simp [decodeAddr, h', show ¬ a.toNat ≤ 0x0FFF by omega, show ¬ a.toNat ≤ 0x11FF by omega]

theorem decodeAddr_pct {a : Addr} {i : Fin 24} (h : a.toNat = 0x1800 + i.val) : decodeAddr a = .pct i := by
  have hi := i.isLt
  have h₁ : 0x1800 ≤ a.toNat ∧ a.toNat ≤ 0x1817 := by omega
  simp [decodeAddr, h₁, show ¬ a.toNat ≤ 0x0FFF by omega, show ¬ a.toNat ≤ 0x11FF by omega,
    show ¬ a.toNat ≤ 0x157F by omega]
  exact Fin.ext (show a.toNat - 0x1800 = i.val by omega)

theorem decodeAddr_dcv {a : Addr} {i : Fin 24} {k : Nat} (hk : k < 2) (h : a.toNat = 0x1820 + 2 * i.val + k) :
    decodeAddr a = .dcv i (halfAt k) := by
  have hi := i.isLt
  have h₁ : 0x1820 ≤ a.toNat ∧ a.toNat ≤ 0x184F := by omega
  have h₂ : halfAt (a.toNat - 0x1820) = halfAt k := by
    unfold halfAt
    rw [show (a.toNat - 0x1820) % 2 = k % 2 by omega]
  simp [decodeAddr, h₁, h₂, show ¬ a.toNat ≤ 0x0FFF by omega, show ¬ a.toNat ≤ 0x11FF by omega,
    show ¬ a.toNat ≤ 0x157F by omega, show ¬ a.toNat ≤ 0x1817 by omega]
  exact Fin.ext (show (a.toNat - 0x1820) / 2 = i.val by omega)

theorem decodeAddr_cmd : decodeAddr cmdAddr = .cmd := by decide

theorem decodeAddr_seg {a : Addr} {n p g k : Nat} (hn : n < 8) (hp : p < 4) (hg : g < 8) (hk : k < 16)
    (h : a.toNat = 0x2000 + 512 * n + 128 * p + 16 * g + k) : decodeAddr a = .seg n p g k := by
  have h₁ : 0x2000 ≤ a.toNat ∧ a.toNat ≤ 0x2FFF := by omega
  have hf : (a.extractLsb' 9 3).toNat = n ∧ (a.extractLsb' 7 2).toNat = p ∧ (a.extractLsb' 4 3).toNat = g ∧
      (a.extractLsb' 0 4).toNat = k := by
    simp only [BitVec.extractLsb'_toNat, Nat.shiftRight_eq_div_pow]
    omega
  unfold decodeAddr
  simp [h₁, hf, show ¬ a.toNat ≤ 0x0FFF by omega, show ¬ a.toNat ≤ 0x11FF by omega,
    show ¬ a.toNat ≤ 0x157F by omega, show ¬ a.toNat ≤ 0x1817 by omega, show ¬ a.toNat ≤ 0x184F by omega,
    show a.toNat ≠ 0x1900 by omega, show a.toNat ≠ 0x1901 by omega, show a.toNat ≠ 0x1902 by omega,
    show a.toNat ≠ 0x1903 by omega, show a.toNat ≠ 0x1904 by omega, show a.toNat ≠ 0x1905 by omega,
    show a.toNat ≠ 0x1906 by omega, show a.toNat ≠ 0x1907 by omega]

/-- The addresses marked reserved in the map R41. -/
theorem decodeAddr_reserved {a : Addr}
    (h : (0x1580 ≤ a.toNat ∧ a.toNat ≤ 0x17FF) ∨ (0x1818 ≤ a.toNat ∧ a.toNat ≤ 0x181F) ∨
      (0x1850 ≤ a.toNat ∧ a.toNat ≤ 0x18FF) ∨ (0x1908 ≤ a.toNat ∧ a.toNat ≤ 0x1FFF) ∨ 0x3000 ≤ a.toNat) :
    decodeAddr a = .reserved := by
  have h₁ : ¬ (0x1800 ≤ a.toNat ∧ a.toNat ≤ 0x1817) := by omega
  have h₂ : ¬ (0x1820 ≤ a.toNat ∧ a.toNat ≤ 0x184F) := by omega
  have h₃ : ¬ (0x2000 ≤ a.toNat ∧ a.toNat ≤ 0x2FFF) := by omega
  unfold decodeAddr
  simp [h₁, h₂, h₃, show ¬ a.toNat ≤ 0x0FFF by omega, show ¬ a.toNat ≤ 0x11FF by omega,
    show ¬ a.toNat ≤ 0x157F by omega,
    show a.toNat ≠ 0x1900 by omega, show a.toNat ≠ 0x1901 by omega, show a.toNat ≠ 0x1902 by omega,
    show a.toNat ≠ 0x1903 by omega, show a.toNat ≠ 0x1904 by omega, show a.toNat ≠ 0x1905 by omega,
    show a.toNat ≠ 0x1906 by omega, show a.toNat ≠ 0x1907 by omega]

/-- All that the address map can answer, range by range: to show something of `decodeAddr a`, show it for each range. -/
theorem decodeAddr_elim {P : Loc → Prop} (a : Addr)
    (src : a.toNat ≤ 0x0FFF → P (.src (a.toNat / 128) (a.toNat % 128)))
    (pb0 : 0x1000 ≤ a.toNat → a.toNat ≤ 0x11FF → P (.pb 0 (a.toNat - 0x1000)))
    (pb : 0x1200 ≤ a.toNat → a.toNat ≤ 0x157F →
      P (.pb (1 + (a.toNat - 0x1200) / 128) ((a.toNat - 0x1200) % 128)))
    (pct : ∀ i : Fin 24, a.toNat = 0x1800 + i.val → P (.pct i))
    (dcv : ∀ i : Fin 24, ∀ h, a.toNat = 0x1820 + 2 * i.val ∨ a.toNat = 0x1821 + 2 * i.val → P (.dcv i h))
    (cmd : a.toNat = 0x1900 → P .cmd) (status : a.toNat = 0x1901 → P .status)
    (actW : ∀ h, a.toNat = 0x1902 ∨ a.toNat = 0x1903 → P (.actW h))
    (actH : ∀ h, a.toNat = 0x1904 ∨ a.toNat = 0x1905 → P (.actH h))
    (expW : a.toNat = 0x1906 → P .expW) (expH : a.toNat = 0x1907 → P .expH)
    (seg : 0x2000 ≤ a.toNat → a.toNat ≤ 0x2FFF → ∀ n p g k, n < 8 → p < 4 → g < 8 → k < 16 → P (.seg n p g k))
    (reserved : ((0x1580 ≤ a.toNat ∧ a.toNat ≤ 0x17FF) ∨ (0x1818 ≤ a.toNat ∧ a.toNat ≤ 0x181F) ∨
      (0x1850 ≤ a.toNat ∧ a.toNat ≤ 0x18FF) ∨ (0x1908 ≤ a.toNat ∧ a.toNat ≤ 0x1FFF) ∨ 0x3000 ≤ a.toNat) →
      P .reserved) : P (decodeAddr a) := by
  have ite : ∀ {p : Prop} [Decidable p] {x y : Loc}, (p → P x) → (¬ p → P y) → P (if p then x else y) := by
    intro p _ x y hx hy
    by_cases h : p
    · rw [if_pos h]; exact hx h
    · rw [if_neg h]; exact hy h
  have dite : ∀ {p : Prop} [Decidable p] {x : p → Loc} {y : Loc}, (∀ h, P (x h)) → (¬ p → P y) →
      P (if h : p then x h else y) := by
    intro p _ x y hx hy
    by_cases h : p
    · rw [dif_pos h]; exact hx h
    · rw [dif_neg h]; exact hy h
  refine ite src fun h₁ => ite (pb0 (by omega)) fun h₂ => ite (pb (by omega)) fun h₃ => ?_
  refine dite (fun h => pct _ (by simp only; omega)) fun h₄ => dite (fun h => dcv _ _ (by simp only; omega)) fun h₅ => ?_
  refine ite cmd fun h₆ => ite status fun h₇ => ?_
  refine ite (fun h => actW _ (.inl h)) fun h₈ => ite (fun h => actW _ (.inr h)) fun h₉ => ?_
  refine ite (fun h => actH _ (.inl h)) fun h₁₀ => ite (fun h => actH _ (.inr h)) fun h₁₁ => ?_
  refine ite expW fun h₁₂ => ite expH fun h₁₃ => ?_
  exact ite (fun h => seg h.1 h.2 _ _ _ _ (BitVec.isLt _) (BitVec.isLt _) (BitVec.isLt _) (BitVec.isLt _))
    fun h₁₄ => reserved (by omega)

/-- The location's indices are in range, and a place of storage stands at the address. -/
def Loc.At (a : Addr) : Loc → Prop
  | .src r c => r < 32 ∧ c < 128 ∧ srcAddr r c = a.toNat
  | .pb n j => n < 8 ∧ j < pbLen n ∧ pbAddr n j = a.toNat
  | .cmd => a = cmdAddr
  | .seg n p g k => n < 8 ∧ p < 4 ∧ g < 8 ∧ k < 16
  | _ => True

/-- What a location of the map can be. -/
theorem decodeAddr_at (a : Addr) : (decodeAddr a).At a := by
  refine decodeAddr_elim a (fun h => ⟨by omega, by omega, srcAddr_div_mod _⟩)
    (fun h h' => ⟨by omega, show _ < 512 by omega, by simp [pbAddr]; omega⟩) (fun h h' => ⟨by omega, ?_, ?_⟩)
    (fun _ _ => trivial) (fun _ _ _ => trivial) (fun h => show a = cmdAddr from BitVec.eq_of_toNat_eq h)
    (fun _ => trivial) (fun _ _ => trivial) (fun _ _ => trivial) (fun _ => trivial) (fun _ => trivial)
    (fun _ _ _ _ _ _ hn hp hg hk => ⟨hn, hp, hg, hk⟩) (fun _ => trivial)
  · rw [pbLen_eq, screenWidth_of_ne_zero (by omega)]; omega
  · rw [pbAddr, if_neg (by omega)]; omega

end Sys2Proof.Machine
end

