-- ==== Sys2Proof/Laws/Raster.lean ====
section
/-! SUPPORT. What the rasterizer computes: the bits of a packed byte, the bytes of a PixelBuffer, and all that a RASTER can
do. -/

namespace Sys2Proof.Machine

theorem black_iff (v : Byte) : black v = true ↔ v = 0#8 := by simp [black]

/-- Setting bits one by one from 0x00 gives the byte of those bits. -/
theorem getLsbD_setBits (f : Nat → Bool) (n z : Nat) :
    ((List.range n).foldl (fun b z => if f z then b ||| (1#8 <<< z) else b) 0x00#8).getLsbD z =
      (decide (z < n) && decide (z < 8) && f z) := by
  induction n with
  | zero => simp
  | succ n ih =>
    rw [List.range_succ, List.foldl_append, List.foldl_cons, List.foldl_nil]
    by_cases hn : n = z
    · subst hn
      cases hf : f n <;> simp [ih, hf]
    · have hlt : decide (z < n + 1) = decide (z < n) := by
        rw [decide_eq_decide]; omega
      cases hf : f n
      · simp only [Bool.false_eq_true, if_false, hlt, ih]
      · simp only [if_true, BitVec.getLsbD_or, ih, hlt, BitVec.getLsbD_shiftLeft, BitVec.getLsbD_one]
        by_cases h : z < n
        · simp [h]
        · simp [h, show z - n ≠ 0 by omega]

/-- Bit `z` of a packed byte is set exactly when its sample is black. -/
theorem packByte_bit (sample : Nat → Nat → Byte) (p x : Nat) {z : Nat} (hz : z < 8) :
    (packByte sample p x).getLsbD z = black (sample ((3 - p) * 8 + (7 - z)) x) := by
  unfold packByte
  rw [getLsbD_setBits (fun z => black (sample ((3 - p) * 8 + (7 - z)) x))]
  simp [hz]

/-- The rows a packed byte is made of are rows of the staging frame, whatever its plane. -/
theorem bandRow_lt (p z : Nat) : (3 - p) * 8 + (7 - z) < 32 := by omega

/-- The columns of a screen are columns of the staging frame. -/
theorem column_lt (n j : Nat) : j % screenWidth n < 128 := by
  have := Nat.mod_lt j (screenWidth_pos n)
  rcases screenWidth_cases n with ⟨h, -⟩ | ⟨h, -⟩ <;> omega

/-- A packed byte depends only on the column's samples in rows 0..31. -/
theorem packByte_congr {sample sample' : Nat → Nat → Byte} {p x : Nat}
    (h : ∀ r < 32, sample r x = sample' r x) : packByte sample p x = packByte sample' p x := by
  refine BitVec.eq_of_getLsbD_eq fun z hz => ?_
  rw [packByte_bit _ _ _ hz, packByte_bit _ _ _ hz, h _ (by omega)]

@[simp] theorem pixelBuffer_length (sample : Nat → Nat → Byte) (w : Nat) : (pixelBuffer sample w).length = 4 * w := by
  simp [pixelBuffer, Config.nPlanes]

theorem pixelBuffer_getElem (sample : Nat → Nat → Byte) (w j : Nat) (h : j < (pixelBuffer sample w).length) :
    (pixelBuffer sample w)[j] = packByte sample (j / w) (j % w) := by
  simp [pixelBuffer]

/-- The state a successful RASTER leaves. -/
theorem execRaster_of_match {scr : Screen} {s : State} (h : s.dimsMatch scr = true) :
    execRaster scr s = .next (((s.recordRaster scr (BitVec.ofNat 8 (screenWidth scr.toNat))
      (BitVec.ofNat 8 Config.height)).storeBlock (pbAddr scr.toNat 0)
        (pixelBuffer s.sample (screenWidth scr.toNat))).reportCode .ok) := by
  simp [execRaster, h]

/-- The state a failed RASTER leaves. -/
theorem execRaster_of_mismatch {scr : Screen} {s : State} (h : s.dimsMatch scr = false) :
    execRaster scr s = .next ((s.recordRaster scr (BitVec.ofNat 8 (screenWidth scr.toNat))
      (BitVec.ofNat 8 Config.height)).reportCode .sizeMismatch) := by
  simp [execRaster, h]

/-- All that a RASTER can do. -/
theorem execRaster_cases (scr : Screen) (s : State) :
    (s.dimsMatch scr = true ∧ execRaster scr s = .next (((s.recordRaster scr
      (BitVec.ofNat 8 (screenWidth scr.toNat)) (BitVec.ofNat 8 Config.height)).storeBlock (pbAddr scr.toNat 0)
        (pixelBuffer s.sample (screenWidth scr.toNat))).reportCode .ok)) ∨
    (s.dimsMatch scr = false ∧ execRaster scr s = .next ((s.recordRaster scr
      (BitVec.ofNat 8 (screenWidth scr.toNat)) (BitVec.ofNat 8 Config.height)).reportCode .sizeMismatch)) := by
  cases h : s.dimsMatch scr
  · exact .inr ⟨rfl, execRaster_of_mismatch h⟩
  · exact .inl ⟨rfl, execRaster_of_match h⟩

theorem dimsMatch_iff (s : State) (scr : Screen) :
    s.dimsMatch scr = true ↔ s.actW.toNat = screenWidth scr.toNat ∧ s.actH.toNat = 32 := by
  simp [State.dimsMatch, Config.height]

/-- What the block a successful RASTER stores reads as. -/
theorem stored_storeBlock_pixelBuffer (s : State) (sample : Nat → Nat → Byte) (n b : Nat) :
    (s.storeBlock (pbAddr n 0) (pixelBuffer sample (screenWidth n))).stored b =
      if pbAddr n 0 ≤ b ∧ b < pbAddr n 0 + pbLen n then
        packByte sample ((b - pbAddr n 0) / screenWidth n) ((b - pbAddr n 0) % screenWidth n)
      else s.stored b := by
  rw [State.stored_storeBlock]
  simp only [pixelBuffer_length, ← pbLen_eq]
  split
  · rw [pixelBuffer_getElem]
  · rfl

end Sys2Proof.Machine
end

