-- ==== Sys2Proof/Laws/Step.lean ====
section
/-! SUPPORT. All that an instruction and a step can do: one inversion lemma for each, which proofs about the machine cite
instead of unfolding it. -/

namespace Sys2Proof.Machine

/-- All that a write can do, with the location it names. -/
inductive WriteEffect (a : Addr) (d : Byte) (s : State) : State → Prop where
  | sample (r c : Nat) (hr : r < 32) (hc : c < 128) (ha : srcAddr r c = a.toNat) :
      WriteEffect a d s (s.storeByte (srcAddr r c) d)
  | pct (i : Fin 24) : WriteEffect a d s (s.setPct i (clampPct d))
  | actW (h : Half) : WriteEffect a d s (s.setActW (withHalf h s.actW d))
  | actH (h : Half) : WriteEffect a d s (s.setActH (withHalf h s.actH d))
  | nop (ha : a = cmdAddr) (hd : decodeCmd8 d = .nop) : WriteEffect a d s s
  | raster (scr : Screen) (t : State) (ha : a = cmdAddr) (hd : decodeCmd8 d = .raster scr)
      (ht : execRaster scr s = .next t) : WriteEffect a d s t
  | illegal (ha : a = cmdAddr) (hd : decodeCmd8 d = .illegal) : WriteEffect a d s (s.reportCode .illegalCmd)
  | ignored (ha : a ≠ cmdAddr) : WriteEffect a d s s

theorem execCmd_effect (d : Byte) (s : State) : ∃ t, execCmd d s = .next t ∧ WriteEffect cmdAddr d s t := by
  unfold execCmd
  cases hd : decodeCmd8 d with
  | nop => exact ⟨_, rfl, .nop rfl hd⟩
  | raster scr =>
    rcases execRaster_cases scr s with ⟨-, h⟩ | ⟨-, h⟩
    · exact ⟨_, h, .raster scr _ rfl hd h⟩
    · exact ⟨_, h, .raster scr _ rfl hd h⟩
  | illegal => exact ⟨_, rfl, .illegal rfl hd⟩

/-- A write always answers a next state, and it is one of these. -/
theorem execWr_effect (a : Addr) (d : Byte) (s : State) : ∃ t, execWr a d s = .next t ∧ WriteEffect a d s t := by
  have hat := decodeAddr_at a
  unfold execWr
  cases hl : decodeAddr a with
  | src r c =>
    rw [hl] at hat
    exact ⟨_, rfl, .sample r c hat.1 hat.2.1 hat.2.2⟩
  | pct i => exact ⟨_, rfl, .pct i⟩
  | actW h => exact ⟨_, rfl, .actW h⟩
  | actH h => exact ⟨_, rfl, .actH h⟩
  | cmd =>
    rw [hl] at hat
    have ha : a = cmdAddr := hat
    rw [ha]
    exact execCmd_effect d s
  | pb _ _ | dcv _ _ | status | expW | expH | seg _ _ _ _ | reserved =>
    refine ⟨_, rfl, .ignored fun ha => ?_⟩
    rw [ha, decodeAddr_cmd] at hl
    cases hl

/-- All that a step can do. -/
inductive StepEffect (s : State) : State → Prop where
  | idle (hp : s.pending = []) : StepEffect s s
  | reset (rest : List HostEvent) (hp : s.pending = .reset :: rest) :
      StepEffect s ({ s with pending := rest } : State).takeReset
  | read (tw : TransactionWord) (rest : List HostEvent) (a : Addr) (d : Byte)
      (hp : s.pending = .transaction tw :: rest) (htw : decodeHT tw = .rd a d) :
      StepEffect s (({ s with pending := rest } : State).returnByte (hostRead { s with pending := rest } a))
  | write (tw : TransactionWord) (rest : List HostEvent) (a : Addr) (d : Byte) (t : State)
      (hp : s.pending = .transaction tw :: rest) (htw : decodeHT tw = .wr a d)
      (ht : WriteEffect a d { s with pending := rest } t) : StepEffect s t

theorem decodeHT_cases (tw : TransactionWord) :
    decodeHT tw = .wr (tw.extractLsb' 8 16) (tw.extractLsb' 0 8) ∨
      decodeHT tw = .rd (tw.extractLsb' 8 16) (tw.extractLsb' 0 8) := by
  unfold decodeHT
  split
  · exact .inl rfl
  · exact .inr rfl

/-- A step always answers a next state, and it is one of these. -/
theorem step_effect (s : State) : ∃ t, step s = .next t ∧ StepEffect s t := by
  unfold step State.takeEvent?
  cases hp : s.pending with
  | nil => exact ⟨_, rfl, .idle hp⟩
  | cons e rest =>
    cases e with
    | reset => exact ⟨_, rfl, .reset rest hp⟩
    | transaction tw =>
      rcases decodeHT_cases tw with h | h
      · obtain ⟨t, h₁, h₂⟩ := execWr_effect (tw.extractLsb' 8 16) (tw.extractLsb' 0 8) { s with pending := rest }
        refine ⟨t, ?_, .write tw rest _ _ t hp h h₂⟩
        show exec (decodeHT tw) _ = _
        rw [h]
        exact h₁
      · refine ⟨_, ?_, .read tw rest _ _ hp h⟩
        show exec (decodeHT tw) _ = _
        rw [h]
        rfl

/-- If a step answers a next state, it is one of these. -/
theorem step_next_effect {s t : State} (h : step s = .next t) : StepEffect s t := by
  obtain ⟨u, hu, he⟩ := step_effect s
  rw [hu] at h
  cases h
  exact he

/-- A write leaves the host's side of the port and the epoch alone. -/
theorem WriteEffect.port {a : Addr} {d : Byte} {s t : State} (h : WriteEffect a d s t) :
    t.pending = s.pending ∧ t.returned = s.returned ∧ t.epoch = s.epoch := by
  cases h with
  | raster scr t _ _ ht =>
    rcases execRaster_cases scr s with ⟨-, he⟩ | ⟨-, he⟩ <;> rw [he] at ht <;> cases ht <;> simp
  | _ => simp

end Sys2Proof.Machine
end

