-- ==== Sys2Proof/Laws/HostBus.lean ====
section
/-! SUPPORT. Reading and writing by location, and the arithmetic of halves, clamps and the status byte. -/

namespace Sys2Proof.Machine

theorem exec_rd_of_loc {a : Addr} {l : Loc} (h : decodeAddr a = l) (data : Byte) (s : State) :
    exec (.rd a data) s = .next { s with returned := s.returned ++ [readLoc s l] } := by
  subst h
  rfl

theorem exec_wr_of_loc {a : Addr} {l : Loc} (h : decodeAddr a = l) (d : Byte) (s : State) :
    exec (.wr a d) s = writeLoc d s l := by
  subst h
  rfl

/-- A write to CMD is the command its byte encodes. -/
theorem exec_wr_cmd (d : Byte) (s : State) : exec (.wr cmdAddr d) s = execCmd d s :=
  exec_wr_of_loc decodeAddr_cmd d s

/-- What a read returns depends on the RSU's own state alone, not on the host's side of the port. -/
theorem hostRead_port (s : State) (p : List HostEvent) (r : List Byte) (a : Addr) :
    hostRead { s with pending := p, returned := r } a = hostRead s a := by
  unfold hostRead readLoc
  split <;> rfl

theorem halfOf_hi_toNat (v : Word) : (halfOf .hi v).toNat = v.toNat / 256 := by
  have := v.isLt
  simp only [halfOf, BitVec.extractLsb'_toNat, Nat.shiftRight_eq_div_pow]
  omega

theorem halfOf_lo_toNat (v : Word) : (halfOf .lo v).toNat = v.toNat % 256 := by
  simp [halfOf, BitVec.extractLsb'_toNat]

theorem withHalf_hi_eq (v : Word) (d : Byte) :
    withHalf .hi v d = BitVec.ofNat 16 (d.toNat * 256 + v.toNat % 256) := by
  refine BitVec.eq_of_toNat_eq ?_
  have hv := v.isLt
  have hd := d.isLt
  have h : (withHalf .hi v d).toNat = d.toNat <<< 8 ||| (v.extractLsb' 0 8).toNat := BitVec.toNat_append ..
  rw [h, ← Nat.shiftLeft_add_eq_or_of_lt (BitVec.isLt _)]
  simp only [BitVec.extractLsb'_toNat, Nat.shiftLeft_eq, BitVec.toNat_ofNat, Nat.shiftRight_zero]
  omega

theorem withHalf_lo_eq (v : Word) (d : Byte) :
    withHalf .lo v d = BitVec.ofNat 16 (v.toNat / 256 * 256 + d.toNat) := by
  refine BitVec.eq_of_toNat_eq ?_
  have hv := v.isLt
  have hd := d.isLt
  have h : (withHalf .lo v d).toNat = (v.extractLsb' 8 8).toNat <<< 8 ||| d.toNat := BitVec.toNat_append ..
  rw [h, ← Nat.shiftLeft_add_eq_or_of_lt d.isLt]
  simp only [BitVec.extractLsb'_toNat, Nat.shiftLeft_eq, BitVec.toNat_ofNat, Nat.shiftRight_eq_div_pow]
  omega

/-- The halves of a quantity with one half replaced. -/
theorem halfOf_withHalf (h : Half) (v : Word) (d : Byte) : halfOf h (withHalf h v d) = d := by
  refine BitVec.eq_of_toNat_eq ?_
  have hv := v.isLt
  have hd := d.isLt
  cases h
  · rw [halfOf_hi_toNat, withHalf_hi_eq, BitVec.toNat_ofNat]; omega
  · rw [halfOf_lo_toNat, withHalf_lo_eq, BitVec.toNat_ofNat]; omega

theorem encode16_toNat (p : Byte) : (encode16 p).toNat = min (p.toNat * 13107 / 20) 65535 := by
  unfold encode16
  rw [BitVec.toNat_ofNat]
  omega

theorem clampPct_toNat (d : Byte) : (clampPct d).toNat = min d.toNat 100 := by
  unfold clampPct
  rw [BitVec.toNat_ofNat]
  omega

theorem clampPct_eq_ite (d : Byte) : clampPct d = if d.toNat ≤ 100 then d else 0x64#8 := by
  refine BitVec.eq_of_toNat_eq ?_
  rw [clampPct_toNat]
  split
  · omega
  · show _ = 100
    omega

theorem Status.byte_toNat (st : Status) : st.byte.toNat = st.lastScreen.toNat * 16 + st.code.bits.toNat := by
  obtain ⟨c, l⟩ := st
  revert l
  cases c <;> decide

/-- A screen's own place among the screens. -/
theorem screen_eq_zero_iff (scr : Screen) : scr = 0#3 ↔ scr.toNat = 0 := by
  revert scr
  decide

/-- A sample's write leaves every PixelBuffer as it was, and a PixelBuffer's block every sample. -/
theorem pixelByte_storeByte_src (s : State) {r c n j : Nat} (d : Byte) (hr : r < 32) (hc : c < 128) (hn : n < 8)
    (hj : j < pbLen n) : (s.storeByte (srcAddr r c) d).pixelByte n j = s.pixelByte n j := by
  have h₁ := srcAddr_lt hr hc
  have h₂ := pbAddr_bounds hn hj
  unfold State.pixelByte
  rw [State.stored_storeByte, if_neg (by omega)]

theorem sample_storeBlock_pb (s : State) (sample : Nat → Nat → Byte) {n r c : Nat} (hn : n < 8) (hr : r < 32)
    (hc : c < 128) : (s.storeBlock (pbAddr n 0) (pixelBuffer sample (screenWidth n))).sample r c = s.sample r c := by
  have h₁ := srcAddr_lt hr hc
  have h₂ := pbAddr_bounds (n := n) (j := 0) hn (by rw [pbLen_eq]; have := screenWidth_pos n; omega)
  unfold State.sample
  rw [stored_storeBlock_pixelBuffer, if_neg (by omega)]

/-- A byte of the PixelBuffer just stored. -/
theorem pixelByte_storeBlock_self (s : State) (sample : Nat → Nat → Byte) {n j : Nat} (hj : j < pbLen n) :
    (s.storeBlock (pbAddr n 0) (pixelBuffer sample (screenWidth n))).pixelByte n j =
      packByte sample (j / screenWidth n) (j % screenWidth n) := by
  unfold State.pixelByte
  rw [stored_storeBlock_pixelBuffer, pbAddr_eq n j, if_pos (by omega), Nat.add_sub_cancel_left]

/-- The other PixelBuffers are as they were. -/
theorem pixelByte_storeBlock_other (s : State) (sample : Nat → Nat → Byte) {n n' j : Nat} (hn : n < 8) (hn' : n' < 8)
    (hne : n' ≠ n) (hj : j < pbLen n') :
    (s.storeBlock (pbAddr n 0) (pixelBuffer sample (screenWidth n))).pixelByte n' j = s.pixelByte n' j := by
  unfold State.pixelByte
  rw [stored_storeBlock_pixelBuffer, if_neg]
  rintro ⟨h₁, h₂⟩
  have h := pbAddr_inj hn' hn hj (show pbAddr n' j - pbAddr n 0 < pbLen n by omega)
    (by rw [pbAddr_eq n (pbAddr n' j - pbAddr n 0)]; omega)
  exact hne h.1

/-- All that a successful RASTER does to the frame memories, through reads. -/
theorem execRaster_stored {scr : Screen} {s t : State} (hm : s.dimsMatch scr = true)
    (ht : execRaster scr s = .next t) (a : Nat) :
    t.stored a = if pbAddr scr.toNat 0 ≤ a ∧ a < pbAddr scr.toNat 0 + pbLen scr.toNat then
      packByte s.sample ((a - pbAddr scr.toNat 0) / screenWidth scr.toNat)
        ((a - pbAddr scr.toNat 0) % screenWidth scr.toNat)
      else s.stored a := by
  rw [execRaster_of_match hm] at ht
  cases ht
  exact stored_storeBlock_pixelBuffer s s.sample scr.toNat a

/-- Every byte of PB[s] after a successful RASTER. -/
theorem execRaster_pixelByte_index {scr : Screen} {s t : State} (hm : s.dimsMatch scr = true)
    (ht : execRaster scr s = .next t) {j : Nat} (hj : j < pbLen scr.toNat) :
    t.pixelByte scr.toNat j = packByte s.sample (j / screenWidth scr.toNat) (j % screenWidth scr.toNat) := by
  unfold State.pixelByte
  rw [execRaster_stored hm ht, pbAddr_eq scr.toNat j, if_pos (by omega), Nat.add_sub_cancel_left]

/-- The byte of plane `p`, column `x` after a successful RASTER. -/
theorem execRaster_pixelByte {scr : Screen} {s t : State} (hm : s.dimsMatch scr = true)
    (ht : execRaster scr s = .next t) {p x : Nat} (hp : p < 4) (hx : x < screenWidth scr.toNat) :
    t.pixelByte scr.toNat (p * screenWidth scr.toNat + x) = packByte s.sample p x := by
  rw [execRaster_pixelByte_index hm ht (plane_index_lt hp hx), Nat.mul_comm p, Nat.mul_add_div (screenWidth_pos _),
    Nat.div_eq_of_lt hx, Nat.mul_add_mod, Nat.mod_eq_of_lt hx, Nat.add_zero]

end Sys2Proof.Machine
end

