-- ==== Sys2Proof/Laws/PerInstr.lean ====
section
/-! SUPPORT. The per-instruction family TableMatch: an encoded instruction has the fixed bits of its row. -/

namespace Sys2Proof.Laws.TableMatch

/-- The bits that the row of spec/opcode_table.json fixes, `word & mask = match`, and the format's width. -/
def Statement (i : Instr) : Prop :=
  match i, encode i with
  | .rd _ _, .ht tw => tw &&& 0x1000000#25 = 0x0000000#25
  | .wr _ _, .ht tw => tw &&& 0x1000000#25 = 0x1000000#25
  | .nop, .cmd8 d => d &&& 0xFF#8 = 0x00#8
  | .raster _, .cmd8 d => d &&& 0xF8#8 = 0x10#8
  | _, _ => False

/-- Bit 24 alone is the W field. -/
theorem mask_write (w : BitVec 1) (a : Addr) (d : Byte) :
    encodeHT w a d &&& 0x1000000#25 = if w = 1#1 then 0x1000000#25 else 0x0000000#25 := by
  refine BitVec.eq_of_getLsbD_eq fun k hk => ?_
  have hw := congrArg (fun b => b.getLsbD 0) (encodeHT_write w a d)
  have hm : (0x1000000#25).getLsbD k = decide (k = 24) := by
    revert k
    decide
  rw [BitVec.getLsbD_and, hm]
  by_cases h : k = 24
  · subst h
    simp only [BitVec.getLsbD_extractLsb'] at hw
    have h1 : ∀ w : BitVec 1, w = 0#1 ∨ w = 1#1 := by decide
    rcases h1 w with rfl | rfl <;> simp_all
  · have h0 : (0x0000000#25).getLsbD k = false := by simp
    simp only [h, decide_false, Bool.and_false]
    split
    · rw [hm]; simp [h]
    · rw [h0]

theorem rd (addr : Addr) (data : Byte) : Statement (.rd addr data) := mask_write 0#1 addr data

theorem wr (addr : Addr) (data : Byte) : Statement (.wr addr data) := mask_write 1#1 addr data

theorem nop : Statement .nop := show 0x00#8 &&& 0xFF#8 = 0x00#8 by decide

theorem raster (scr : Screen) : Statement (.raster scr) := by
  show (0b00010#5 ++ scr) &&& 0xF8#8 = 0x10#8
  revert scr
  decide

end Sys2Proof.Laws.TableMatch
end

