-- ==== Sys2Proof/Tests/Slice0.lean ====
section
/-! SUPPORT. The model's own tests. Expected values are the spec's: its encodings (spec/30_encoding.md R61, R64, R70) and
its vectors (spec/95_test_vectors.md), named in each comment. The `witness_` theorems show that the hypotheses of the
statement they name can be met. -/

namespace Sys2Proof.Tests

open Sys2Proof Sys2Proof.Machine

/-! ### Words written out from the encodings -/

/-- R61: W = 0, ADDR = 0x1901, DATA = 0. -/
theorem test_decode_rd : decodeHT 0b0000110010000000100000000#25 = .rd 0x1901#16 0x00#8 := by decide

/-- R61: W = 1, ADDR = 0x0F9F, DATA = 0xA5. -/
theorem test_decode_wr : decodeHT 0b1000011111001111110100101#25 = .wr 0x0F9F#16 0xA5#8 := by decide

/-- R64: 0x00. -/
theorem test_decode_nop : decode (.cmd8 0b00000000#8) = .ok .nop := by decide

/-- R63: OP = 1, RSV = 0, SCR = 5. -/
theorem test_decode_raster : decode (.cmd8 0b00010101#8) = .ok (.raster 5#3) := by decide

/-- R66: RSV = 1, and a byte next to NOP. -/
theorem test_decode_illegal :
    decode (.cmd8 0b00011000#8) = .error (.illegalCmd 0x18#8) ∧
      decode (.cmd8 0b00000001#8) = .error (.illegalCmd 0x01#8) := by decide

/-- Rows of the opcode table by their own bits; a number past a format's width is refused. -/
theorem test_decodeTableWord :
    decodeTableWord 32 0x0190100 = some (.rd 0x1901#16 0x00#8) ∧
      decodeTableWord 32 0x1190013 = some (.wr 0x1900#16 0x13#8) ∧ decodeTableWord 8 0x00 = some .nop ∧
      decodeTableWord 8 0x17 = some (.raster 7#3) ∧ decodeTableWord 8 0x18 = none ∧
      decodeTableWord 8 0x100 = none ∧ decodeTableWord 32 0x2000000 = none := by decide

/-- The assembler's form (R61). -/
theorem test_wellFormed :
    (Instr.rd 0x1901#16 0x00#8).wf = true ∧ (Instr.wr 0x1900#16 0xFF#8).wf = true := by decide

/-- The one check of `Instr.wf` refuses an `RD` with DATA. -/
theorem test_wellFormed_refuses_rd_data : (Instr.rd 0x1901#16 0x01#8).wf = false := by decide

/-- Each check of `Pseudo.wf` refuses an operand just past its range. -/
theorem test_pseudo_wf_refuses :
    (Pseudo.raster 8).wf = false ∧ (Pseudo.ldpix 32 0 0).wf = false ∧ (Pseudo.ldpix 0 128 0).wf = false ∧
      (Pseudo.ldpix 0 0 256).wf = false ∧ (Pseudo.setdim 65536 0).wf = false ∧ (Pseudo.setdim 0 65536).wf = false ∧
      (Pseudo.setpct 8 0 0).wf = false ∧ (Pseudo.setpct 0 3 0).wf = false ∧ (Pseudo.setpct 0 0 256).wf = false ∧
      (Pseudo.rdpb 8 0).wf = false ∧ (Pseudo.rdpb 0 512).wf = false ∧ (Pseudo.rdpb 1 128).wf = false ∧
      (Pseudo.rddcv 8 0).wf = false ∧ (Pseudo.rddcv 0 3).wf = false ∧ (Pseudo.rdseg 8 0 0 0).wf = false ∧
      (Pseudo.rdseg 0 4 0 0).wf = false ∧ (Pseudo.rdseg 0 0 8 0).wf = false ∧ (Pseudo.rdseg 0 0 0 16).wf = false := by
  decide

/-- R70's words, from their assembler text (R68); an address past 16 bits is refused. -/
theorem test_assemble :
    (assembleLine "RASTER 3".toList).map (fun x => x.instrs.map transactionOf) = some [0x1190013#25] ∧
      (assembleLine "RD 0x1901 -> 0x10".toList).map (fun x => x.instrs.map transactionOf) = some [0x0190100#25] ∧
      assembleLine "RD 0x10000".toList = none ∧ assembleLine "WR 0x1900, 0x10 -> 1".toList = none := by decide

/-! ### The address map at its boundaries (R41) -/

/-- The index and the byte of a color value's place. -/
def dcvPlace : Loc → Option (Nat × Half)
  | .dcv i h => some (i.val, h)
  | _ => none

/-- The first and the last address of each range of R41 but DCV's. -/
theorem test_map_boundaries :
    [0x0000#16, 0x0FFF#16, 0x1000#16, 0x11FF#16, 0x1200#16, 0x157F#16, 0x1580#16, 0x17FF#16].map decodeAddr =
      [.src 0 0, .src 31 127, .pb 0 0, .pb 0 511, .pb 1 0, .pb 7 127, .reserved, .reserved] ∧
    [0x1800#16, 0x1817#16, 0x1818#16, 0x181F#16, 0x1850#16, 0x18FF#16].map decodeAddr =
      [.pct 0, .pct 23, .reserved, .reserved, .reserved, .reserved] ∧
    [0x1900#16, 0x1901#16, 0x1902#16, 0x1903#16, 0x1904#16, 0x1905#16, 0x1906#16, 0x1907#16].map decodeAddr =
      [.cmd, .status, .actW .hi, .actW .lo, .actH .hi, .actH .lo, .expW, .expH] ∧
    [0x1908#16, 0x1FFF#16, 0x2000#16, 0x2143#16, 0x2AB9#16, 0x2FFF#16, 0x3000#16, 0xFFFF#16].map decodeAddr =
      [.reserved, .reserved, .seg 0 0 0 0, .seg 0 2 4 3, .seg 5 1 3 9, .seg 7 3 7 15, .reserved, .reserved] :=
  ⟨by decide, by decide, by decide, by decide⟩

/-- DCV's boundaries, and section 2.5's place of screen 7, channel B. -/
theorem test_map_dcv :
    [0x1820#16, 0x1821#16, 0x184E#16, 0x184F#16].map (fun a => dcvPlace (decodeAddr a)) =
      [some (0, .hi), some (0, .lo), some (23, .hi), some (23, .lo)] := by decide

/-! ### One step of each instruction -/

/-- A field of the state an outcome leaves. -/
def after {α : Type} (f : State → α) : Host.Outcome State Fault Refusal → Option α
  | .next s => some (f s)
  | .fault _ => none
  | .refused _ => none

/-- Column 0 of rows 0..7: one black sample in the given row, white elsewhere. -/
def column (row : Nat) : Memory :=
  (List.range 8).map (fun r => (r * 128, if r = row then 0x00#8 else 0xFF#8))

/-- A state that RASTER 1 accepts. -/
def staged (row : Nat) : State :=
  { State.reset with mem := column row, actW := 0x0020#16, actH := 0x0020#16 }

/-- Section 2.5: with PCT[1] = 50, `RD 0x1822 -> 0x7F` and `RD 0x1823 -> 0xFF` (R112). -/
theorem test_rd_dcv :
    after State.returned (exec (.rd 0x1822#16 0x00#8) (State.reset.setPct 1 50#8)) = some [0x7F#8] ∧
      after State.returned (exec (.rd 0x1823#16 0x00#8) (State.reset.setPct 1 50#8)) = some [0xFF#8] := by decide

/-- Vectors H1, H3, H4: STATUS, CMD and a reserved address read 0x00 after reset. -/
theorem test_rd_zero :
    ([0x1901#16, 0x1900#16, 0x1580#16].map fun a => after State.returned (exec (.rd a 0xFF#8) State.reset)) =
      [some [0x00#8], some [0x00#8], some [0x00#8]] := by decide

/-- Vectors H13 and H14: 101 is clamped to 100, 100 stays. -/
theorem test_wr_pct_clamps :
    after (fun s => s.pct[5]) (exec (.wr 0x1805#16 0x65#8) State.reset) = some 0x64#8 ∧
      after (fun s => s.pct[5]) (exec (.wr 0x1805#16 0x64#8) State.reset) = some 0x64#8 := by decide

/-- Vector H11: writing the high byte of ACT_W keeps the low byte. -/
theorem test_wr_act_high_keeps_low :
    after State.actW (exec (.wr 0x1902#16 0x00#8) (State.reset.setActW 0x0180#16)) = some 0x0080#16 := by decide

/-- Vector D14: NOP does not clear a code. -/
theorem test_nop_keeps_code :
    after (fun s => s.status.byte) (exec .nop (State.reset.reportCode .sizeMismatch)) = some 0x01#8 := by decide

set_option maxRecDepth 4000 in
/-- Vectors P1 and P2: row 0 is bit 7 and row 7 bit 0 of PB[1][96]. -/
theorem test_raster_packs :
    after (fun s => (s.pixelByte 1 96, s.status.byte)) (exec (.raster 1#3) (staged 0)) = some (0x80#8, 0x10#8) ∧
      after (fun s => (s.pixelByte 1 96, s.status.byte)) (exec (.raster 1#3) (staged 7)) = some (0x01#8, 0x10#8) := by
  decide

/-- Vector D7: ACT_H = 0x0120 matches in its low byte only; STATUS, EXP_W and EXP_H after it. -/
theorem test_raster_mismatch :
    after (fun s => (s.status.byte, s.expW, s.expH, s.mem)) (exec (.raster 2#3) ((staged 0).setActH 0x0120#16)) =
      some (0x21#8, 0x20#8, 0x20#8, column 0) := by decide

/-- R95's example: with STATUS = 0x10, the byte 0x20 gives STATUS = 0x12; and vector D12, 0x18, rasterizes nothing. -/
theorem test_illegal_command :
    after (fun s => s.status.byte)
        (exec (.wr 0x1900#16 0x20#8) { State.reset with status := { code := .ok, lastScreen := 1#3 } }) =
      some 0x12#8 ∧
    after (fun s => (s.status.byte, s.mem)) (exec (.wr 0x1900#16 0x18#8) (staged 0)) = some (0x02#8, column 0) := by
  decide

/-- Vectors E1, E4 to E7 (section 2.5). -/
theorem test_encode16 :
    [101#8, 1#8, 99#8, 20#8, 33#8].map encode16 = [0xFFFF#16, 0x028F#16, 0xFD6F#16, 0x3333#16, 0x547A#16] := by decide

/-- The first step after reset runs the word the host issues: the rows RASTER (a mismatch, since ACT is 0) and RD. -/
theorem test_step_fetchWord :
    after (fun s => s.status.byte) (step (State.reset.withFetchWord 8 0x13)) = some 0x31#8 ∧
      after State.returned (step (State.reset.withFetchWord 32 0x0190100)) = some [0x00#8] := by decide

/-! ### Witnesses: the hypotheses of the statements can be met -/

theorem witness_ResetEventRestoresEveryElement :
    ({ staged 0 with pending := [.reset] } : State).pending = .reset :: [] := rfl

/-- A staged frame, percentages at their limit and a RASTER pending: it meets the invariant. -/
theorem witness_inv : Inv { staged 0 with pending := [.transaction 0x1190011#25], pct := Vector.replicate 24 100#8 } :=
  { memCanonical := by decide
    pctLegal := by decide
    expRecorded := .inl ⟨rfl, rfl, rfl, by decide⟩
    pbWhole := fun n hn => .inr fun j hj => by
      have hlow : ∀ a : Nat, 0x1000 ≤ a → Memory.read? (column 0) a = none := by
        intro a ha
        have hc : column 0 = [(0, 0x00#8), (128, 0xFF#8), (256, 0xFF#8), (384, 0xFF#8), (512, 0xFF#8), (640, 0xFF#8),
          (768, 0xFF#8), (896, 0xFF#8)] := by decide
        rw [hc]
        simp only [Memory.read?]
        repeat rw [if_neg (by omega)]
      refine hlow _ ?_
      unfold pbAddr
      split <;> omega
    okMeansWritten := fun _ h => absurd rfl h }

theorem witness_EveryStepKeepsTheInvariant :
    ∃ s t, Inv s ∧ step s = .next t ∧ t.status.lastScreen = 1#3 :=
  ⟨_, _, witness_inv, rfl, by decide⟩

theorem witness_StepRunsTheOldestTransaction :
    ({ staged 0 with pending := [.transaction 0x1190011#25] } : State).pending = .transaction 0x1190011#25 :: [] ∧
      State.reset.pending = [] := ⟨rfl, rfl⟩

theorem witness_StepRunsTheIssuedInstruction :
    decodeTableWord 8 0x10 = some (.raster 0#3) ∧ decodeTableWord 25 0x1FFFFFF = some (.wr 0xFFFF#16 0xFF#8) := by decide

theorem witness_EveryRunServesEveryTransaction :
    (({ staged 0 with pending := [.transaction 0x0FFFFFF#25] } : State).pending = .transaction 0x0FFFFFF#25 :: [] ∧
      (0x0FFFFFF#25).getLsbD 24 = false) ∧
    ({ staged 0 with pending := [.transaction 0x1000000#25] } : State).pending = .transaction 0x1000000#25 :: [] ∧
      (0x1000000#25).getLsbD 24 = true :=
  ⟨⟨rfl, by decide⟩, rfl, by decide⟩

theorem witness_ResetHoldsTheStatedValues : (31 < 32 ∧ 127 < 128) ∧ 7 < 8 ∧ 127 < pbLen 7 ∧ 511 < pbLen 0 := by decide

theorem witness_EncodeInvertsDecode :
    decode (.ht 0x0FFFFFF#25) = .ok (.rd 0xFFFF#16 0xFF#8) ∧ decode (.cmd8 0x17#8) = .ok (.raster 7#3) := by decide

theorem witness_CommandBytesDecodeAsTheTableSays :
    (0x10 ≤ (0x10#8).toNat ∧ (0x17#8).toNat ≤ 0x17) ∧ (0x01 ≤ (0x01#8).toNat ∧ (0x0F#8).toNat ≤ 0x0F) ∧
      0x18 ≤ (0x18#8).toNat ∧ 0x18 ≤ (0xFF#8).toNat := by decide

/-- Every clause of the read and write statements at boundary addresses of its range. -/
theorem witness_ReadReturnsTheByteTheMapNames :
    (0x0FFF#16).toNat ≤ 0x0FFF ∧ (0x1000 ≤ (0x1000#16).toNat ∧ (0x11FF#16).toNat ≤ 0x11FF) ∧
      (0x1200 ≤ (0x1200#16).toNat ∧ (0x157F#16).toNat ≤ 0x157F) ∧
      (0x1817#16).toNat = 0x1800 + (23 : Fin 24).val ∧ (0x184E#16).toNat = 0x1820 + 2 * (23 : Fin 24).val ∧
      (0x184F#16).toNat = 0x1821 + 2 * (23 : Fin 24).val ∧
      (0x2FFF#16).toNat = 0x2000 + 512 * 7 + 128 * 3 + 16 * 7 + 15 ∧
      (0x1580 ≤ (0x1580#16).toNat ∧ (0x17FF#16).toNat ≤ 0x17FF) ∧
      (0x1818 ≤ (0x1818#16).toNat ∧ (0x181F#16).toNat ≤ 0x181F) ∧
      (0x1850 ≤ (0x1850#16).toNat ∧ (0x18FF#16).toNat ≤ 0x18FF) ∧
      (0x1908 ≤ (0x1908#16).toNat ∧ (0x1FFF#16).toNat ≤ 0x1FFF) ∧ 0x3000 ≤ (0x3000#16).toNat := by decide

theorem witness_WriteDoesWhatTheMapSays :
    (0x0FFF#16).toNat ≤ 0x0FFF ∧ (0x1800#16).toNat = 0x1800 + (0 : Fin 24).val ∧
      (0x1000 ≤ (0x17FF#16).toNat ∧ (0x17FF#16).toNat ≤ 0x17FF) ∧
      (0x1818 ≤ (0x18FF#16).toNat ∧ (0x18FF#16).toNat ≤ 0x18FF) ∧ 0x1906 ≤ (0x1906#16).toNat := by decide

theorem witness_ReservedAndReadOnlyPlacesIgnoreWrites :
    0x3000 ≤ (0xFFFF#16).toNat ∧ (0x1000 ≤ (0x157F#16).toNat ∧ (0x157F#16).toNat ≤ 0x157F) ∧
      (0x1820 ≤ (0x184F#16).toNat ∧ (0x184F#16).toNat ≤ 0x184F) ∧
      (0x2000 ≤ (0x2FFF#16).toNat ∧ (0x2FFF#16).toNat ≤ 0x2FFF) := by decide

theorem witness_WrittenByteReadsBack :
    (0x0FFF#16).toNat ≤ 0x0FFF ∧ (0x1902 ≤ (0x1905#16).toNat ∧ (0x1905#16).toNat ≤ 0x1905) ∧
      (0x1800 ≤ (0x1817#16).toNat ∧ (0x1817#16).toNat ≤ 0x1817) := by decide

theorem witness_CommandWriteRunsOneOfThree :
    0x17#8 = 0b00010#5 ++ 7#3 ∧ 0x18#8 ≠ 0x00#8 ∧ (0x18#8).extractLsb' 3 5 ≠ 0b00010#5 := by decide

/-- Both outcomes of the check. -/
theorem witness_RasterChecksThenPacks :
    ((staged 0).actW.toNat = 32 ∧ (staged 0).actH.toNat = 32) ∧
      (((staged 0).setActH 33#16).actW.toNat ≠ 32 ∨ ((staged 0).setActH 33#16).actH.toNat ≠ 32) := by decide

theorem witness_HostReadsThePackedBits :
    ∃ t, (staged 0).actW.toNat = screenWidth (1#3).toNat ∧ (staged 0).actH.toNat = 32 ∧
      exec (.raster 1#3) (staged 0) = .next t ∧ 3 < 4 ∧ 31 < screenWidth (1#3).toNat ∧ 7 < 8 ∧
      (0x127F#16).toNat =
        (if 1#3 = 0#3 then 0x1000 + 3 * 128 + 31 else 0x1200 + ((1#3).toNat - 1) * 128 + 3 * 32 + 31) :=
  ⟨_, by decide, by decide, rfl, by decide, by decide, by decide, by decide⟩

theorem witness_InverseMapReconstructsThePixels :
    (∃ t, (staged 0).actW.toNat = screenWidth (1#3).toNat ∧ (staged 0).actH.toNat = 32 ∧
      exec (.raster 1#3) (staged 0) = .next t ∧ 31 < 32 ∧ 31 < screenWidth (1#3).toNat) ∧
    31 < 32 ∧ 127 < screenWidth 0 ∧ (3 - 31 / 8) * screenWidth 0 + 127 = (3 - 24 / 8) * screenWidth 0 + 127 ∧
      7 - 31 % 8 = 7 - (7 + 24) % 8 :=
  ⟨⟨_, by decide, by decide, rfl, by decide, by decide⟩, by decide, by decide, by decide, by decide⟩

theorem witness_IllegalCommandOnlySetsCode : (0x01 ≤ (0x0F#8).toNat ∧ (0x0F#8).toNat ≤ 0x0F) ∧ 0x18 ≤ (0x18#8).toNat := by
  decide

theorem witness_SegmentViewPadsWithZero :
    (0x23FF#16).toNat = 0x2000 + 512 * 1 + 128 * 3 + 16 * 7 + 15 ∧
      (0x239F#16).toNat = 0x2000 + 512 * 1 + 128 * 3 + 16 * 1 + 15 ∧
      (0x21FF#16).toNat = 0x2000 + 512 * 0 + 128 * 3 + 16 * 7 + 15 := by decide

theorem witness_CommandsAreIsolated : decodeCmd8 0x18#8 = .illegal ∧ (7 < 8 ∧ 7 ≠ (1#3).toNat ∧ 127 < pbLen 7) := by
  decide

/-- A successful RASTER on canonical memory. -/
theorem witness_RasterBlockIsTheLoop :
    ∃ t, (staged 0).actW.toNat = screenWidth (1#3).toNat ∧ (staged 0).actH.toNat = 32 ∧
      exec (.raster 1#3) (staged 0) = .next t ∧ (staged 0).mem.wf :=
  ⟨_, by decide, by decide, rfl, by decide⟩

theorem witness_RepeatedRasterChangesNothing : ∃ t, exec (.raster 0#3) (staged 0) = .next t ∧ t.expW = 0x80#8 :=
  ⟨_, rfl, by decide⟩

/-- A whole frame of one sample value, and dimensions that RASTER 1 accepts. -/
def uniform (v : Byte) : State :=
  { State.reset with mem := (List.range 4096).map (fun a => (a, v)), actW := 0x0020#16, actH := 0x0020#16 }

theorem uniform_read (v : Byte) (n k a : Nat) :
    Memory.read? ((List.range' k n).map (fun a => (a, v))) a = if k ≤ a ∧ a < k + n then some v else none := by
  induction n generalizing k with
  | zero =>
    rw [if_neg (by omega)]
    rfl
  | succ n ih =>
    rw [List.range'_succ, List.map_cons, Memory.read?, ih]
    by_cases h : k = a
    · rw [if_pos h, if_pos (by omega)]
    · rw [if_neg h]
      by_cases h' : k + 1 ≤ a ∧ a < k + 1 + n
      · rw [if_pos h', if_pos (by omega)]
      · rw [if_neg h', if_neg (by omega)]

theorem uniform_sample (v : Byte) {r c : Nat} (hr : r < 32) (hc : c < 128) : (uniform v).sample r c = v := by
  unfold State.sample State.stored uniform srcAddr Config.srcCols
  rw [List.range_eq_range', uniform_read, if_pos (by omega)]
  rfl

/-- Both clauses: an all-white and an all-black frame. -/
theorem witness_UniformFramesGiveUniformBuffers :
    ((uniform 0x01#8).actW.toNat = screenWidth (1#3).toNat ∧ (uniform 0x01#8).actH.toNat = 32) ∧
      (∀ r c, r < 32 → c < 128 → (uniform 0x01#8).sample r c ≠ 0x00#8) ∧
      ∀ r c, r < 32 → c < 128 → (uniform 0x00#8).sample r c = 0x00#8 :=
  ⟨⟨rfl, rfl⟩, fun _ _ hr hc => by rw [uniform_sample _ hr hc]; decide, fun _ _ hr hc => uniform_sample _ hr hc⟩

/-- Two staging frames that differ in the value of every sample, and in no sample's colour. -/
theorem witness_RasterSeesOnlyBlacknessWithinTheWidth :
    ∃ t t', exec (.raster 1#3) (uniform 0x01#8) = .next t ∧ exec (.raster 1#3) (uniform 0xFF#8) = .next t' ∧
      (uniform 0x01#8).actW = (uniform 0xFF#8).actW ∧ (uniform 0x01#8).actH = (uniform 0xFF#8).actH ∧
      (uniform 0x01#8).actW.toNat = screenWidth (1#3).toNat ∧ (uniform 0x01#8).actH.toNat = 32 ∧
      ∀ r c, r < 32 → c < screenWidth (1#3).toNat →
        ((uniform 0x01#8).sample r c = 0x00#8 ↔ (uniform 0xFF#8).sample r c = 0x00#8) := by
  refine ⟨_, _, rfl, rfl, rfl, rfl, rfl, rfl, fun r c hr hc => ?_⟩
  have hc' : c < 128 := Nat.lt_of_lt_of_le hc (by decide)
  rw [uniform_sample _ hr hc', uniform_sample _ hr hc']
  decide

theorem witness_Encode16IsMonotonic : (99#8).toNat ≤ (100#8).toNat := by decide

theorem witness_Encode16IsExactScaling : (100#8).toNat ≤ 100 ∧ 100 ≤ (100#8).toNat := by decide

/-- The second clause also needs the invariant: `witness_inv`. -/
theorem witness_PercentageWritesAreClamped :
    (0x1817#16).toNat = 0x1800 + (23 : Fin 24).val ∧ (22 : Fin 24) ≠ 23 ∧
      (∃ s, Inv s ∧ s.pct[23] = 100#8) ∧ 0x1800 ≤ (0x1800#16).toNat ∧ (0x1817#16).toNat ≤ 0x1817 :=
  ⟨by decide, by decide, ⟨_, witness_inv, by decide⟩, by decide, by decide⟩

theorem witness_ColorValuesReadBigEndian :
    (0x184E#16).toNat = 0x1820 + 2 * (23 : Fin 24).val ∧ (0x184F#16).toNat = (0x184E#16).toNat + 1 := by decide

/-- A step that changes both fields of STATUS: RASTER 3 with wrong dimensions. -/
theorem witness_OnlyCommandsChangeStatus :
    ∃ t, step (State.reset.withFetchWord 8 0x13) = .next t ∧ t.status.code ≠ State.reset.status.code ∧
      t.status.lastScreen ≠ State.reset.status.lastScreen :=
  ⟨_, rfl, by decide, by decide⟩

/-- A RASTER of another screen, and a RASTER of the screen itself whose check fails. -/
theorem witness_OnlyRasterWritesAPixelBuffer :
    (∃ t, step ((staged 0).withFetchWord 8 0x11) = .next t ∧
      ((staged 0).withFetchWord 8 0x11).rewritesNext 2 = false) ∧
    (∃ t, step ((staged 0).withFetchWord 8 0x10) = .next t ∧
      ((staged 0).withFetchWord 8 0x10).rewritesNext 0 = false) ∧ 2 < 8 ∧ 127 < pbLen 2 :=
  ⟨⟨_, rfl, by decide⟩, ⟨_, rfl, by decide⟩, by decide, by decide⟩

/-- A reset and a successful RASTER do write the PixelBuffer. -/
theorem test_rewritesNext :
    ((staged 0).withFetchWord 8 0x11).rewritesNext 1 = true ∧
      ({ staged 0 with pending := [.reset] } : State).rewritesNext 5 = true := by decide

theorem witness_OnlyItsOwnWriteChangesASample :
    ∃ t, step ((staged 0).withFetchWord 32 0x10000AA) = .next t ∧ t.sample 0 0 ≠ (staged 0).sample 0 0 ∧ 0 < 32 ∧
      0 < 128 :=
  ⟨_, rfl, by decide, by decide, by decide⟩

/-- What is computed of an outcome's state holds of the state. -/
theorem of_after {α : Type} {f : State → α} {o : Host.Outcome State Fault Refusal} {x : α} (h : after f o = some x)
    (v : State) (hv : o = .next v) : f v = x := by
  subst hv
  exact Option.some.inj h

/-- After a RASTER 1: a write to SRC, a write that spoils ACT_W, and a second RASTER 1, whose check then fails. -/
theorem witness_PixelBufferIsASnapshot :
    ∃ t u, (staged 0).actW.toNat = screenWidth (1#3).toNat ∧ (staged 0).actH.toNat = 32 ∧
      exec (.raster 1#3) { staged 0 with
        pending := [.transaction 0x10000FF#25, .transaction 0x1190380#25, .transaction 0x1190011#25] } = .next t ∧
      (∀ i < 3, ∀ v, runSteps i t = .next v → v.rewritesNext (1#3).toNat = false) ∧ runSteps 3 t = .next u ∧
      u.status.code = .sizeMismatch := by
  refine ⟨_, _, by decide, by decide, rfl, fun i hi => ?_, rfl, by decide⟩
  match i, hi with
  | 0, _ => exact of_after (by decide)
  | 1, _ => exact of_after (by decide)
  | 2, _ => exact of_after (by decide)

theorem witness_BootSequenceShowsThePixels : 3 < 4 ∧ 127 < screenWidth (0#3).toNat ∧ 31 < screenWidth (7#3).toNat ∧ 7 < 8 := by
  decide

theorem witness_PseudoInstructionsReachTheirPlaces :
    (Pseudo.ldpix 31 127 255).wf = true ∧ (Pseudo.setdim 65535 65535).wf = true ∧ (Pseudo.setpct 7 2 255).wf = true ∧
      (Pseudo.rdpb 0 511).wf = true ∧ (Pseudo.rdpb 7 127).wf = true ∧ (Pseudo.rddcv 7 2).wf = true ∧
      (23 : Fin 24).val = 3 * 7 + 2 ∧ (Pseudo.rdseg 7 3 7 15).wf = true := by decide

/-- The text of the spec's numerals, and one line for each clause: boundary values, either case, a leading zero. -/
theorem witness_AssemblerWritesItsOwnForm :
    (assembleLine "SETDIM 128, 32".toList).isSome = true ∧
    (Numeral.hex (true, 15) [(false, 15), (true, 15), (true, 15)]).text = "0xFfFF".toList ∧
    (Numeral.hex (true, 15) [(false, 15), (true, 15), (true, 15)]).value = 65535 ∧
    (Numeral.dec 0 [2, 5, 5]).text = "0255".toList ∧ (Numeral.dec 0 [2, 5, 5]).value = 255 ∧
    (Numeral.hex (false, 1) [(false, 9), (false, 0), (false, 0)]).value = 0x1900 ∧
    ((Pseudo.raster 7).wf = true ∧ [Numeral.dec 7 []].map Numeral.value = (Pseudo.raster 7).operands) ∧
    lineText ['W', 'R'] [.hex (false, 0) [], .dec 1 []] none (some "x".toList) = "WR 0x0, 1 ;x".toList := by decide

end Sys2Proof.Tests
end

/-! PROOFS. The memory map (spec/20_memory.md). -/

namespace Sys2Proof.Machine

/-- A write outside SRC, PCT, CMD and ACT changes nothing: each range of the map R41 either lies within those, or
decodes to a place that `writeLoc` ignores (R47, R81). -/
theorem exec_wr_ignored {a : Addr} (d : Byte) (s : State)
    (h : (0x1000 ≤ a.toNat ∧ a.toNat ≤ 0x17FF) ∨ (0x1818 ≤ a.toNat ∧ a.toNat ≤ 0x18FF) ∨ a.toNat = 0x1901 ∨
      0x1906 ≤ a.toNat) : exec (.wr a d) s = .next s := by
  rw [exec_wr_of_loc rfl]
  apply decodeAddr_elim (P := fun l => writeLoc d s l = .next s) a
  case src | cmd | actW | actH => intros; omega
  case pct => intro i hi; have := i.isLt; omega
  case pb0 | pb | dcv | status | expW | expH | seg | reserved => intros; rfl

/-- A read of a reserved address returns 0x00 and is otherwise without effect (R47). -/
theorem exec_rd_reserved {a : Addr} (data : Byte) (s : State)
    (h : (0x1580 ≤ a.toNat ∧ a.toNat ≤ 0x17FF) ∨ (0x1818 ≤ a.toNat ∧ a.toNat ≤ 0x181F) ∨
      (0x1850 ≤ a.toNat ∧ a.toNat ≤ 0x18FF) ∨ (0x1908 ≤ a.toNat ∧ a.toNat ≤ 0x1FFF) ∨ 0x3000 ≤ a.toNat) :
    exec (.rd a data) s = .next { s with returned := s.returned ++ [0x00#8] } :=
  exec_rd_of_loc (decodeAddr_reserved h) data s

/-- Settles O16: a reserved address decodes to `.reserved`, and both the reserved and the read-only ranges lie where
writes are ignored. -/
theorem reservedAndReadOnlyPlacesIgnoreWrites : Obligations.ReservedAndReadOnlyPlacesIgnoreWrites := by
  unfold Obligations.ReservedAndReadOnlyPlacesIgnoreWrites
  intro a d data s
  exact ⟨fun hres => ⟨exec_rd_reserved data s hres, exec_wr_ignored d s (by omega)⟩,
    fun hro => exec_wr_ignored d s (by bv_omega)⟩

end Sys2Proof.Machine

/-! PROOFS. The encodings (spec/30_encoding.md). -/

namespace Sys2Proof

/-- The W field is the word's top bit (R61). -/
theorem extractLsb'_write_eq_one_iff (tw : TransactionWord) : tw.extractLsb' 24 1 = 1#1 ↔ 2 ^ 24 ≤ tw.toNat := by
  have := tw.isLt
  rw [← BitVec.toNat_inj, BitVec.extractLsb'_toNat, Nat.shiftRight_eq_div_pow, BitVec.toNat_ofNat]
  omega

/-- The ADDR field, as a number (R61). -/
theorem extractLsb'_addr_toNat (tw : TransactionWord) :
    (tw.extractLsb' 8 16).toNat = tw.toNat / 2 ^ 8 % 2 ^ 16 := by
  rw [BitVec.extractLsb'_toNat, Nat.shiftRight_eq_div_pow]

/-- The DATA field, as a number (R61). -/
theorem extractLsb'_data_toNat (tw : TransactionWord) : (tw.extractLsb' 0 8).toNat = tw.toNat % 2 ^ 8 := by
  rw [BitVec.extractLsb'_toNat, Nat.shiftRight_zero]

/-- R62, W = 0. -/
theorem decodeHT_of_lt {tw : TransactionWord} (h : tw.toNat < 2 ^ 24) :
    decodeHT tw = .rd (tw.extractLsb' 8 16) (tw.extractLsb' 0 8) :=
  if_neg ((extractLsb'_write_eq_one_iff tw).not.mpr (Nat.not_le.mpr h))

/-- R62, W = 1. -/
theorem decodeHT_of_le {tw : TransactionWord} (h : 2 ^ 24 ≤ tw.toNat) :
    decodeHT tw = .wr (tw.extractLsb' 8 16) (tw.extractLsb' 0 8) :=
  if_pos ((extractLsb'_write_eq_one_iff tw).mpr h)

/-- OP and RSV together are those of RASTER on the eight bytes 0x10 to 0x17 alone (R63, R64). -/
theorem extractLsb'_op_eq_raster_iff (d : Byte) :
    d.extractLsb' 3 5 = 0b00010#5 ↔ 0x10 ≤ d.toNat ∧ d.toNat ≤ 0x17 := by
  have := d.isLt
  rw [← BitVec.toNat_inj, BitVec.extractLsb'_toNat, Nat.shiftRight_eq_div_pow, BitVec.toNat_ofNat]
  omega

theorem decodeCmd8_of_raster_range {d : Byte} (h : 0x10 ≤ d.toNat ∧ d.toNat ≤ 0x17) :
    decodeCmd8 d = .raster (d.extractLsb' 0 3) := by
  have hne : d ≠ 0x00#8 := by bv_omega
  have hop := (extractLsb'_op_eq_raster_iff d).mpr h
  rw [decodeCmd8, if_neg hne, if_pos hop]

theorem decodeCmd8_of_illegal_range {d : Byte} (h : (0x01 ≤ d.toNat ∧ d.toNat ≤ 0x0F) ∨ 0x18 ≤ d.toNat) :
    decodeCmd8 d = .illegal := by
  have hne : d ≠ 0x00#8 := by bv_omega
  have hop : d.extractLsb' 3 5 ≠ 0b00010#5 := by
    rw [ne_eq, extractLsb'_op_eq_raster_iff]
    omega
  rw [decodeCmd8, if_neg hne, if_neg hop]

/-- The legal command bytes are those of the table's first two rows (R64). -/
theorem decodeCmd8_legal_iff (d : Byte) :
    decodeCmd8 d ≠ .illegal ↔ d.toNat = 0 ∨ (0x10 ≤ d.toNat ∧ d.toNat ≤ 0x17) := by
  constructor
  · intro hlegal
    by_contra hout
    exact hlegal (decodeCmd8_of_illegal_range (by omega))
  · rintro (hnop | hraster)
    · obtain rfl : d = 0x00#8 := BitVec.eq_of_toNat_eq hnop
      decide
    · rw [decodeCmd8_of_raster_range hraster]
      nofun

/-- R64's count: of the table's four ranges of bytes, the one byte of NOP and the eight of RASTER are legal. -/
theorem countP_legal_cmd8 : ((List.range 256).countP fun d => decodeCmd8 (BitVec.ofNat 8 d) ≠ .illegal) = 9 := by
  have hranges : List.range 256 =
      List.range' 0 1 ++ List.range' 0x01 15 ++ List.range' 0x10 8 ++ List.range' 0x18 232 := by
    rw [List.range_eq_range', List.range'_append_1, List.range'_append_1, List.range'_append_1]
  have hnop : (List.range' 0 1).countP (fun d => decodeCmd8 (BitVec.ofNat 8 d) ≠ .illegal) = 1 := by decide
  have hraster : (List.range' 0x10 8).countP (fun d => decodeCmd8 (BitVec.ofNat 8 d) ≠ .illegal) = 8 := by decide
  have hillegal (k n : Nat) (h : (1 ≤ k ∧ k + n ≤ 0x10) ∨ (0x18 ≤ k ∧ k + n ≤ 256)) :
      (List.range' k n).countP (fun d => decodeCmd8 (BitVec.ofNat 8 d) ≠ .illegal) = 0 := by
    refine List.countP_eq_zero.mpr fun d hd => ?_
    have hmem := List.mem_range'_1.mp hd
    rw [decide_eq_true_eq, decodeCmd8_legal_iff, BitVec.toNat_ofNat]
    omega
  rw [hranges, List.countP_append, List.countP_append, List.countP_append, hnop, hraster,
    hillegal 0x01 15 (by omega), hillegal 0x18 232 (by omega)]

theorem decode_cmd8_nop : decode (.cmd8 0x00#8) = .ok .nop := rfl

theorem decode_cmd8_raster {d : Byte} (h : 0x10 ≤ d.toNat) (h' : d.toNat ≤ 0x17) :
    decode (.cmd8 d) = .ok (.raster (d.extractLsb' 0 3)) := by
  simp only [decode, decodeCmd8_of_raster_range ⟨h, h'⟩]

theorem decode_cmd8_illegal {d : Byte} (h : (0x01 ≤ d.toNat ∧ d.toNat ≤ 0x0F) ∨ 0x18 ≤ d.toNat) :
    decode (.cmd8 d) = .error (.illegalCmd d) := by
  simp only [decode, decodeCmd8_of_illegal_range h]

/-- Settles O10: the fields are the word's, and W, its top bit, tells a read from a write. -/
theorem everyTransactionWordDecodes : Obligations.EveryTransactionWordDecodes := by
  unfold Obligations.EveryTransactionWordDecodes
  intro tw
  refine ⟨tw.extractLsb' 8 16, tw.extractLsb' 0 8, extractLsb'_addr_toNat tw, extractLsb'_data_toNat tw, ?_⟩
  rcases Nat.lt_or_ge tw.toNat (2 ^ 24) with hread | hwrite
  · exact .inl ⟨hread, congrArg Except.ok (decodeHT_of_lt hread)⟩
  · exact .inr ⟨hwrite, congrArg Except.ok (decodeHT_of_le hwrite)⟩

/-- Settles O11: one lemma for each row of the table, and the count over the 256 bytes. -/
theorem commandBytesDecodeAsTheTableSays : Obligations.CommandBytesDecodeAsTheTableSays :=
  ⟨decode_cmd8_nop, fun _ => decode_cmd8_raster, fun _ => decode_cmd8_illegal, countP_legal_cmd8⟩

/-- Settles O12: each example word is made of the fields that the spec gives it, so it decodes to them by the round trip
`decodeHT_encodeHT_read` or `decodeHT_encodeHT_write`. -/
theorem specExampleWordsDecode : Obligations.SpecExampleWordsDecode := by
  have hraster : encodeHT 1#1 0x1900#16 0x13#8 = 0x1190013#25 := by decide
  have hnop : encodeHT 1#1 0x1900#16 0x00#8 = 0x1190000#25 := by decide
  have hrd : encodeHT 0#1 0x1901#16 0x00#8 = 0x0190100#25 := by decide
  have hwr : encodeHT 1#1 0x0F9F#16 0x00#8 = 0x10F9F00#25 := by decide
  exact ⟨hraster, hraster ▸ decodeHT_encodeHT_write _ _, hnop, hnop ▸ decodeHT_encodeHT_write _ _,
    congrArg TableWord.ht hrd, hrd ▸ decodeHT_encodeHT_read _ _,
    congrArg TableWord.ht hwr, hwr ▸ decodeHT_encodeHT_write _ _,
    decode_cmd8_raster (by decide) (by decide), decode_cmd8_nop⟩

end Sys2Proof

/-! PROOFS. The host transactions RD and WR (spec/40_host_bus.md). -/

namespace Sys2Proof.Machine

/-! ### The register page of the map R41, address by address -/

theorem decodeAddr_status : decodeAddr 0x1901#16 = .status := by decide
theorem decodeAddr_actW_hi : decodeAddr 0x1902#16 = .actW .hi := by decide
theorem decodeAddr_actW_lo : decodeAddr 0x1903#16 = .actW .lo := by decide
theorem decodeAddr_actH_hi : decodeAddr 0x1904#16 = .actH .hi := by decide
theorem decodeAddr_actH_lo : decodeAddr 0x1905#16 = .actH .lo := by decide
theorem decodeAddr_expW : decodeAddr 0x1906#16 = .expW := by decide
theorem decodeAddr_expH : decodeAddr 0x1907#16 = .expH := by decide

/-! ### What a read returns -/

theorem hostRead_of_loc {a : Addr} {l : Loc} (h : decodeAddr a = l) (s : State) : hostRead s a = readLoc s l := by
  rw [hostRead, h]

theorem hostRead_pct {a : Addr} {i : Fin 24} (s : State) (h : a.toNat = 0x1800 + i.val) : hostRead s a = s.pct[i] :=
  hostRead_of_loc (decodeAddr_pct h) s

/-- Either byte of a color value, the even address the high one: DCV is `encode16` of the current percentage (R45,
R112). -/
theorem hostRead_dcv {a : Addr} {i : Fin 24} {k : Nat} (s : State) (hk : k < 2) (h : a.toNat = 0x1820 + 2 * i.val + k) :
    hostRead s a = halfOf (halfAt k) (encode16 s.pct[i]) :=
  hostRead_of_loc (decodeAddr_dcv hk h) s

theorem hostRead_dcv_hi_toNat {a : Addr} {i : Fin 24} (s : State) (h : a.toNat = 0x1820 + 2 * i.val) :
    (hostRead s a).toNat = min (s.pct[i].toNat * 13107 / 20) 65535 / 256 := by
  rw [hostRead_dcv (i := i) (k := 0) s (by omega) (by omega), halfAt, if_pos rfl, halfOf_hi_toNat, encode16_toNat]

theorem hostRead_dcv_lo_toNat {a : Addr} {i : Fin 24} (s : State) (h : a.toNat = 0x1821 + 2 * i.val) :
    (hostRead s a).toNat = min (s.pct[i].toNat * 13107 / 20) 65535 % 256 := by
  rw [hostRead_dcv (i := i) (k := 1) s (by omega) (by omega), halfAt, if_neg (by decide), halfOf_lo_toNat,
    encode16_toNat]

theorem hostRead_status_toNat (s : State) :
    (hostRead s 0x1901#16).toNat = s.status.lastScreen.toNat * 16 + s.status.code.bits.toNat := by
  rw [hostRead_of_loc decodeAddr_status]
  exact Status.byte_toNat s.status

theorem hostRead_actW_hi_toNat (s : State) : (hostRead s 0x1902#16).toNat = s.actW.toNat / 256 := by
  rw [hostRead_of_loc decodeAddr_actW_hi]
  exact halfOf_hi_toNat s.actW

theorem hostRead_actW_lo_toNat (s : State) : (hostRead s 0x1903#16).toNat = s.actW.toNat % 256 := by
  rw [hostRead_of_loc decodeAddr_actW_lo]
  exact halfOf_lo_toNat s.actW

theorem hostRead_actH_hi_toNat (s : State) : (hostRead s 0x1904#16).toNat = s.actH.toNat / 256 := by
  rw [hostRead_of_loc decodeAddr_actH_hi]
  exact halfOf_hi_toNat s.actH

theorem hostRead_actH_lo_toNat (s : State) : (hostRead s 0x1905#16).toNat = s.actH.toNat % 256 := by
  rw [hostRead_of_loc decodeAddr_actH_lo]
  exact halfOf_lo_toNat s.actH

/-- R96, with the column written as the address map writes it. -/
theorem segByte_eq_ite (s : State) (n p g k : Nat) :
    s.segByte n p g k =
      if 16 * g + k < screenWidth n then s.pixelByte n (p * screenWidth n + (16 * g + k)) else 0x00#8 := by
  rw [Nat.mul_comm 16 g]
  rfl

theorem hostRead_seg {a : Addr} {n p g k : Nat} (s : State) (hn : n < 8) (hp : p < 4) (hg : g < 8) (hk : k < 16)
    (h : a.toNat = 0x2000 + 512 * n + 128 * p + 16 * g + k) :
    hostRead s a = if 16 * g + k < screenWidth n then s.pixelByte n (p * screenWidth n + (16 * g + k)) else 0x00#8 :=
  (hostRead_of_loc (decodeAddr_seg hn hp hg hk h) s).trans (segByte_eq_ite s n p g k)

/-- Settles O13: the byte is `hostRead`'s, and each clause is what it reads in one range of the map. -/
theorem readReturnsTheByteTheMapNames : Obligations.ReadReturnsTheByteTheMapNames := by
  unfold Obligations.ReadReturnsTheByteTheMapNames
  intro a data s
  refine ⟨hostRead s a, rfl, ?src, ?pb0, ?pb, ?pct, ?dcvHi, ?dcvLo, ?cmd, ?status, ?actWHi, ?actWLo, ?actHHi, ?actHLo,
    ?expW, ?expH, ?seg, ?reserved⟩
  case src => exact fun h => hostRead_of_loc (decodeAddr_src h) s
  case pb0 => exact fun h h' => hostRead_of_loc (decodeAddr_pb0 h h') s
  case pb => exact fun h h' => hostRead_of_loc (decodeAddr_pb h h') s
  case pct => exact fun _ => hostRead_pct s
  case dcvHi => exact fun _ => hostRead_dcv_hi_toNat s
  case dcvLo => exact fun _ => hostRead_dcv_lo_toNat s
  case cmd => rintro rfl; exact hostRead_of_loc decodeAddr_cmd s
  case status => rintro rfl; exact hostRead_status_toNat s
  case actWHi => rintro rfl; exact hostRead_actW_hi_toNat s
  case actWLo => rintro rfl; exact hostRead_actW_lo_toNat s
  case actHHi => rintro rfl; exact hostRead_actH_hi_toNat s
  case actHLo => rintro rfl; exact hostRead_actH_lo_toNat s
  case expW => rintro rfl; exact hostRead_of_loc decodeAddr_expW s
  case expH => rintro rfl; exact hostRead_of_loc decodeAddr_expH s
  case seg => exact fun _ _ _ _ => hostRead_seg s
  case reserved => exact fun h => hostRead_of_loc (decodeAddr_reserved h) s

/-! ### What a write does -/

theorem sample_storeByte_self (s : State) (r c : Nat) (d : Byte) :
    (s.storeByte (srcAddr r c) d).sample r c = d := by
  rw [State.sample, State.stored_storeByte, if_pos rfl]

theorem stored_storeByte_of_ne (s : State) {a b : Nat} (d : Byte) (h : b ≠ a) :
    (s.storeByte a d).stored b = s.stored b := by
  rw [State.stored_storeByte, if_neg h]

/-- A write within SRC stores the byte at the address's own sample (R42, R81). -/
theorem exec_wr_src {a : Addr} (d : Byte) (s : State) (h : a.toNat ≤ 0x0FFF) :
    exec (.wr a d) s = .next (s.storeByte (srcAddr (a.toNat / 128) (a.toNat % 128)) d) :=
  exec_wr_of_loc (decodeAddr_src h) d s

/-- A write to a PCT register is clamped (R111). -/
theorem exec_wr_pct {a : Addr} {i : Fin 24} (d : Byte) (s : State) (h : a.toNat = 0x1800 + i.val) :
    exec (.wr a d) s = .next (s.setPct i (clampPct d)) :=
  exec_wr_of_loc (decodeAddr_pct h) d s

/-- OP = 2 and RSV = 0 are the high five bits of the byte, as a quotient (R63, R64). -/
theorem extractLsb'_op_eq_raster_iff_div (d : Byte) : d.extractLsb' 3 5 = 0b00010#5 ↔ d.toNat / 8 = 2 := by
  rw [extractLsb'_op_eq_raster_iff]
  omega

/-- R90 by the value of the byte: each branch is one answer of the command decoder. -/
theorem execCmd_eq_ite (d : Byte) (s : State) :
    execCmd d s =
      if d = 0x00#8 then exec .nop s
      else if d.toNat / 8 = 2 then exec (.raster (d.extractLsb' 0 3)) s
      else .next (s.reportCode .illegalCmd) := by
  unfold execCmd decodeCmd8
  simp only [extractLsb'_op_eq_raster_iff_div]
  by_cases hnop : d = 0x00#8
  · simp only [if_pos hnop]; rfl
  · by_cases hraster : d.toNat / 8 = 2
    · simp only [if_neg hnop, if_pos hraster]; rfl
    · simp only [if_neg hnop, if_neg hraster]; rfl

theorem exec_wr_actW_hi (d : Byte) (s : State) :
    exec (.wr 0x1902#16 d) s = .next (s.setActW (BitVec.ofNat 16 (d.toNat * 256 + s.actW.toNat % 256))) := by
  rw [exec_wr_of_loc decodeAddr_actW_hi, writeLoc, withHalf_hi_eq]

theorem exec_wr_actW_lo (d : Byte) (s : State) :
    exec (.wr 0x1903#16 d) s = .next (s.setActW (BitVec.ofNat 16 (s.actW.toNat / 256 * 256 + d.toNat))) := by
  rw [exec_wr_of_loc decodeAddr_actW_lo, writeLoc, withHalf_lo_eq]

theorem exec_wr_actH_hi (d : Byte) (s : State) :
    exec (.wr 0x1904#16 d) s = .next (s.setActH (BitVec.ofNat 16 (d.toNat * 256 + s.actH.toNat % 256))) := by
  rw [exec_wr_of_loc decodeAddr_actH_hi, writeLoc, withHalf_hi_eq]

theorem exec_wr_actH_lo (d : Byte) (s : State) :
    exec (.wr 0x1905#16 d) s = .next (s.setActH (BitVec.ofNat 16 (s.actH.toNat / 256 * 256 + d.toNat))) := by
  rw [exec_wr_of_loc decodeAddr_actH_lo, writeLoc, withHalf_lo_eq]

/-- Settles O15: one lemma for each writable range of the map, and `exec_wr_ignored` for all the rest. -/
theorem writeDoesWhatTheMapSays : Obligations.WriteDoesWhatTheMapSays := by
  unfold Obligations.WriteDoesWhatTheMapSays
  intro a d s
  refine ⟨?src, ?pct, ?cmd, ?actWHi, ?actWLo, ?actHHi, ?actHLo, ?ignored⟩
  case src =>
    exact fun h => ⟨_, exec_wr_src d s h, rfl, sample_storeByte_self s _ _ d, fun _ => stored_storeByte_of_ne s d⟩
  case pct => exact fun _ => exec_wr_pct d s
  case cmd => rintro rfl; exact (exec_wr_cmd d s).trans (execCmd_eq_ite d s)
  case actWHi => rintro rfl; exact exec_wr_actW_hi d s
  case actWLo => rintro rfl; exact exec_wr_actW_lo d s
  case actHHi => rintro rfl; exact exec_wr_actH_hi d s
  case actHLo => rintro rfl; exact exec_wr_actH_lo d s
  case ignored => exact fun h => exec_wr_ignored d s (by bv_omega)

end Sys2Proof.Machine

/-! PROOFS. The commands and the rasterizer (spec/41_rasterizer.md). -/

namespace Sys2Proof.Machine

/-! ### Command dispatch -/

/-- NOP changes no field of the state, STATUS included (R91). -/
theorem exec_nop (s : State) : exec .nop s = .next s := rfl

/-- A write of the byte 0x00 to CMD is NOP (R90, R91). -/
theorem exec_wr_cmd_nop (s : State) : exec (.wr cmdAddr 0x00#8) s = exec .nop s :=
  exec_wr_cmd 0x00#8 s

/-- A write of RASTER's byte to CMD is RASTER (R90). -/
theorem exec_wr_cmd_raster (scr : Screen) (s : State) :
    exec (.wr cmdAddr (0b00010#5 ++ scr)) s = exec (.raster scr) s := by
  rw [exec_wr_cmd, execCmd, decodeCmd8_raster]
  rfl

/-- A write to CMD of a byte that no command has only reports it (R95). -/
theorem exec_wr_cmd_illegal {d : Byte} (s : State) (h : decodeCmd8 d = .illegal) :
    exec (.wr cmdAddr d) s = .next (s.reportCode .illegalCmd) := by
  rw [exec_wr_cmd, execCmd, h]
  rfl

/-- Settles O18: each case is one answer of the command decoder. -/
theorem commandWriteRunsOneOfThree : Obligations.CommandWriteRunsOneOfThree := by
  unfold Obligations.CommandWriteRunsOneOfThree
  intro d s
  refine ⟨?nop, ?raster, ?illegal⟩
  case nop => rintro rfl; exact exec_wr_cmd_nop s
  case raster => rintro scr rfl; exact exec_wr_cmd_raster scr s
  case illegal =>
    intro hnop hraster
    have hillegal : decodeCmd8 d = .illegal := by rw [decodeCmd8, if_neg hnop, if_neg hraster]
    exact exec_wr_cmd_illegal s hillegal

/-- Settles O19: NOP answers the state it was given, and WR 0x1900, 0x00 is NOP. -/
theorem nopChangesNothing : Obligations.NopChangesNothing :=
  fun s => ⟨exec_nop s, (exec_wr_cmd_nop s).trans (exec_nop s)⟩

/-- Settles O23: the two ranges are bytes that decode to no command, and the code's bits stand lowest in STATUS. -/
theorem illegalCommandOnlySetsCode : Obligations.IllegalCommandOnlySetsCode := by
  unfold Obligations.IllegalCommandOnlySetsCode
  intro d s hd
  exact ⟨_, exec_wr_cmd_illegal s (decodeCmd8_of_illegal_range hd), rfl, Status.byte_toNat _⟩

/-! ### What every RASTER does, whether its check succeeds or fails -/

/-- `W(s)` by the screen index that the command carries (R5). -/
theorem screenWidth_toNat (scr : Screen) : screenWidth scr.toNat = if scr = 0#3 then 128 else 32 := by
  simp only [screenWidth, screen_eq_zero_iff]

/-- RASTER stops in no state (R82). -/
theorem execRaster_completes (scr : Screen) (s : State) : ∃ t, execRaster scr s = .next t := by
  rcases execRaster_cases scr s with ⟨-, h⟩ | ⟨-, h⟩
  · exact ⟨_, h⟩
  · exact ⟨_, h⟩

/-- RASTER records the screen and its expected dimensions, and changes nothing but these, CODE and memory (R92). -/
theorem execRaster_record {scr : Screen} {s t : State} (ht : execRaster scr s = .next t) :
    t = { s with mem := t.mem, expW := BitVec.ofNat 8 (screenWidth scr.toNat), expH := 32#8, status := t.status } ∧
      t.status.lastScreen = scr := by
  rcases execRaster_cases scr s with ⟨-, h⟩ | ⟨-, h⟩
  · cases h.symm.trans ht; exact ⟨rfl, rfl⟩
  · cases h.symm.trans ht; exact ⟨rfl, rfl⟩

/-- A RASTER whose check succeeds reports OK (R92). -/
theorem execRaster_code_of_match {scr : Screen} {s t : State} (hm : s.dimsMatch scr = true)
    (ht : execRaster scr s = .next t) : t.status.code = .ok := by
  cases (execRaster_of_match hm).symm.trans ht
  rfl

/-- A RASTER whose check fails reports SIZE_MISMATCH and writes no memory (R92, corner case 1). -/
theorem execRaster_frame_of_mismatch {scr : Screen} {s t : State} (hm : s.dimsMatch scr = false)
    (ht : execRaster scr s = .next t) : t.status.code = .sizeMismatch ∧ t.mem = s.mem := by
  cases (execRaster_of_mismatch hm).symm.trans ht
  exact ⟨rfl, rfl⟩

/-- RASTER leaves every address outside its own PixelBuffer as it was (R92, corner case 5). -/
theorem execRaster_stored_off_pb {scr : Screen} {s t : State} (ht : execRaster scr s = .next t) {a : Nat}
    (ha : ∀ j < pbLen scr.toNat, a ≠ pbAddr scr.toNat j) : t.stored a = s.stored a := by
  cases hm : s.dimsMatch scr with
  | true =>
    have hout : ¬ (pbAddr scr.toNat 0 ≤ a ∧ a < pbAddr scr.toNat 0 + pbLen scr.toNat) := by
      rintro ⟨hlow, hhigh⟩
      refine ha (a - pbAddr scr.toNat 0) (by omega) ?_
      rw [pbAddr_eq scr.toNat (a - _), Nat.add_sub_cancel' hlow]
    rw [execRaster_stored hm ht, if_neg hout]
  | false =>
    cases (execRaster_of_mismatch hm).symm.trans ht
    exact State.stored_congr rfl rfl a

/-- RASTER writes no sample: SRC lies below every PixelBuffer (R98). -/
theorem execRaster_sample {scr : Screen} {s t : State} (ht : execRaster scr s = .next t) {r c : Nat} (hr : r < 32)
    (hc : c < 128) : t.sample r c = s.sample r c := by
  refine execRaster_stored_off_pb ht fun j hj => ?_
  have hsrc := srcAddr_lt hr hc
  have hpb := pbAddr_bounds scr.isLt hj
  omega

/-- RASTER writes no other screen's PixelBuffer: their addresses are distinct (R98). -/
theorem execRaster_pixelByte_other {scr : Screen} {s t : State} (ht : execRaster scr s = .next t) {n j : Nat}
    (hn : n < 8) (hne : n ≠ scr.toNat) (hj : j < pbLen n) : t.pixelByte n j = s.pixelByte n j :=
  execRaster_stored_off_pb ht fun _ hj' heq => hne (pbAddr_inj hn scr.isLt hj hj' heq).1

/-! ### The bits of a packed PixelBuffer -/

/-- R93's closed form: bit `z` of plane `p`, column `x` after a successful RASTER. -/
theorem execRaster_bit {scr : Screen} {s t : State} (hm : s.dimsMatch scr = true) (ht : execRaster scr s = .next t)
    {p x z : Nat} (hp : p < 4) (hx : x < screenWidth scr.toNat) (hz : z < 8) :
    (t.pixelByte scr.toNat (p * screenWidth scr.toNat + x)).getLsbD z =
      decide (s.sample ((3 - p) * 8 + (7 - z)) x = 0x00#8) := by
  rw [execRaster_pixelByte hm ht hp hx, packByte_bit _ _ _ hz, Bool.eq_iff_iff, black_iff, decide_eq_true_eq]

/-- Settles O20: the record and the frame are every RASTER's; the rest is the outcome of its check. -/
theorem rasterChecksThenPacks : Obligations.RasterChecksThenPacks := by
  unfold Obligations.RasterChecksThenPacks
  intro scr s
  obtain ⟨t, ht⟩ := execRaster_completes scr s
  obtain ⟨hframe, hscreen⟩ := execRaster_record ht
  refine ⟨t, screenWidth scr.toNat, screenWidth_toNat scr, ht, hframe, hscreen, ?ok, ?mismatch⟩
  case ok =>
    intro hdims
    have hm := (dimsMatch_iff s scr).mpr hdims
    exact ⟨execRaster_code_of_match hm ht,
      fun p x hp hx => ⟨execRaster_pixelByte hm ht hp hx, fun z hz => execRaster_bit hm ht hp hx hz⟩,
      fun a => execRaster_stored_off_pb ht⟩
  case mismatch =>
    intro hdims
    have hm : s.dimsMatch scr = false := by
      rw [← Bool.not_eq_true, dimsMatch_iff]
      omega
    exact execRaster_frame_of_mismatch hm ht

/-- An address of a PixelBuffer decodes to the byte that stands there (R43). -/
theorem decodeAddr_pbAddr {a : Addr} {n j : Nat} (hn : n < 8) (hj : j < pbLen n) (ha : a.toNat = pbAddr n j) :
    decodeAddr a = .pb n j := by
  unfold pbAddr at ha
  rcases pbLen_cases n with ⟨hlen, rfl⟩ | ⟨hlen, hne⟩
  · rw [if_pos rfl] at ha
    rw [decodeAddr_pb0 (by omega) (by omega), ha, Nat.add_sub_cancel_left]
  · rw [if_neg hne] at ha
    have hscreen : 1 + (a.toNat - 0x1200) / 128 = n := by omega
    have hindex : (a.toNat - 0x1200) % 128 = j := by omega
    rw [decodeAddr_pb (by omega) (by omega), hscreen, hindex]

/-- The address of plane `p`, column `x` of a PixelBuffer, written out for each width (R23, R43). -/
theorem pbAddr_plane (scr : Screen) (p x : Nat) :
    pbAddr scr.toNat (p * screenWidth scr.toNat + x) =
      if scr = 0#3 then 0x1000 + p * 128 + x else 0x1200 + (scr.toNat - 1) * 128 + p * 32 + x := by
  simp only [pbAddr, screenWidth, screen_eq_zero_iff]
  split <;> omega

/-- Settles O21: the address is that of byte `p*W + x` of PB[s], whose bits the closed form gives. -/
theorem hostReadsThePackedBits : Obligations.HostReadsThePackedBits := by
  unfold Obligations.HostReadsThePackedBits
  intro scr s t p x z a data hw hh ht hp hx hz ha
  have hm := (dimsMatch_iff s scr).mpr ⟨hw, hh⟩
  have hret : t.returned = s.returned := by rw [(execRaster_record ht).1]
  have hloc : decodeAddr a = .pb scr.toNat (p * screenWidth scr.toNat + x) :=
    decodeAddr_pbAddr scr.isLt (plane_index_lt hp hx) (ha.trans (pbAddr_plane scr p x).symm)
  refine ⟨t.pixelByte scr.toNat (p * screenWidth scr.toNat + x), ?read, ?bit⟩
  case read => rw [exec_rd_of_loc hloc, hret]; rfl
  case bit =>
    rw [execRaster_bit hm ht hp hx hz, decide_eq_true_eq, Nat.add_sub_assoc (by omega)]

/-- Row `r` is the row that R93 gives for plane `3 - r div 8` and bit `7 - r mod 8` (R94). -/
theorem bandRow_of_row {r : Nat} (hr : r < 32) : (3 - (3 - r / 8)) * 8 + (7 - (7 - r % 8)) = r := by
  omega

/-- A PixelBuffer's index determines its plane and its column (R23). -/
theorem plane_index_inj {n p p' x x' : Nat} (hx : x < screenWidth n) (hx' : x' < screenWidth n)
    (h : p * screenWidth n + x = p' * screenWidth n + x') : p = p' ∧ x = x' := by
  rcases screenWidth_cases n with ⟨hw, -⟩ | ⟨hw, -⟩ <;> rw [hw] at hx hx' h <;> omega

/-- Settles O22: the closed form at the pixel's own plane and bit; and byte and bit give back plane, column and row. -/
theorem inverseMapReconstructsThePixels : Obligations.InverseMapReconstructsThePixels := by
  unfold Obligations.InverseMapReconstructsThePixels
  refine ⟨?inverse, ?injective⟩
  case inverse =>
    intro scr s t r x hw hh ht hr hx
    have hm := (dimsMatch_iff s scr).mpr ⟨hw, hh⟩
    rw [execRaster_bit hm ht (by omega) hx (by omega), decide_eq_true_eq, bandRow_of_row hr]
  case injective =>
    intro n r r' x x' hr hr' hx hx' hbyte hbit
    obtain ⟨hplane, hcol⟩ := plane_index_inj hx hx' hbyte
    exact ⟨by omega, hcol⟩

/-! ### The segment view and isolation -/

/-- A read of the segment view's address is R96's function. -/
theorem exec_rd_seg {a : Addr} {n p g k : Nat} (data : Byte) (s : State) (hn : n < 8) (hp : p < 4) (hg : g < 8)
    (hk : k < 16) (ha : a.toNat = 0x2000 + 512 * n + 128 * p + 16 * g + k) :
    exec (.rd a data) s = .next { s with returned := s.returned ++ [s.segByte n p g k] } :=
  exec_rd_of_loc (decodeAddr_seg hn hp hg hk ha) data s

/-- Within the screen's width the segment view shows the PixelBuffer (R96). -/
theorem segByte_of_lt (s : State) {n g k : Nat} (p : Nat) (h : g * 16 + k < screenWidth n) :
    s.segByte n p g k = s.pixelByte n (p * screenWidth n + g * 16 + k) := by
  rw [segByte_eq_ite, if_pos (by omega), Nat.mul_comm 16, Nat.add_assoc]

/-- Beyond the screen's width the segment view reads zero (R96). -/
theorem segByte_of_le (s : State) {n g k : Nat} (p : Nat) (h : screenWidth n ≤ g * 16 + k) :
    s.segByte n p g k = 0x00#8 := by
  rw [segByte_eq_ite, if_neg (by omega)]

/-- Settles O24: eight segments of 16 columns fill width 128, and two of them width 32. -/
theorem segmentViewPadsWithZero : Obligations.SegmentViewPadsWithZero := by
  unfold Obligations.SegmentViewPadsWithZero
  intro n p g k a data s hn hp hg hk ha
  rw [exec_rd_seg data s hn hp hg hk ha]
  refine ⟨?screen0, ?shown, ?padded⟩
  case screen0 =>
    rintro rfl
    rw [segByte_of_lt s p (by rw [screenWidth_zero]; omega), screenWidth_zero]
  case shown =>
    intro hne hg2
    have hw := screenWidth_of_ne_zero hne
    rw [segByte_of_lt s p (by omega), hw]
  case padded =>
    intro hne hg2
    have hw := screenWidth_of_ne_zero hne
    rw [segByte_of_le s p (by omega)]

/-- Settles O25: the record of RASTER names all that changes outside memory, and its frame all of memory. -/
theorem commandsAreIsolated : Obligations.CommandsAreIsolated := by
  unfold Obligations.CommandsAreIsolated
  refine ⟨fun scr s => ?raster, exec_nop, fun d s => exec_wr_cmd_illegal s⟩
  case raster =>
    obtain ⟨t, ht⟩ := execRaster_completes scr s
    obtain ⟨hframe, -⟩ := execRaster_record ht
    refine ⟨t, ht, ?pct, ?actW, ?actH, fun r c => execRaster_sample ht, fun n j => execRaster_pixelByte_other ht⟩
    all_goals rw [hframe]

end Sys2Proof.Machine

/-! PROOFS. The color value scaler (spec/42_color_scaler.md). -/

namespace Sys2Proof.Machine

/-! ### `encode16` -/

/-- Settles O31: the product, the quotient and the clamp are each monotonic. -/
theorem encode16IsMonotonic : Obligations.Encode16IsMonotonic := by
  unfold Obligations.Encode16IsMonotonic
  intro p q hpq
  rw [encode16_toNat, encode16_toNat]
  have hscaled : p.toNat * 13107 / 20 ≤ q.toNat * 13107 / 20 := by gcongr
  exact min_le_min_right 65535 hscaled

/-- On the legal percentages 0..100 the clamp of R110 does not act. -/
theorem encode16_ofNat_toNat {p : Nat} (hp : p ≤ 100) : (encode16 (BitVec.ofNat 8 p)).toNat = p * 13107 / 20 := by
  rw [encode16_toNat, BitVec.toNat_ofNat]
  omega

/-- A step is 655, and one more when the remainder carries: 13107 = 20·655 + 7. -/
theorem encode16_step {p : Nat} (hp : p < 100) :
    (encode16 (BitVec.ofNat 8 (p + 1))).toNat =
      (encode16 (BitVec.ofNat 8 p)).toNat + if 13 ≤ 7 * p % 20 then 656 else 655 := by
  have hscaled (n : Nat) : n * 13107 / 20 = 655 * n + 7 * n / 20 := by omega
  rw [encode16_ofNat_toNat hp, encode16_ofNat_toNat hp.le, hscaled, hscaled]
  split <;> omega

theorem encode16_step_eq_656_iff {p : Nat} (hp : p < 100) :
    (encode16 (BitVec.ofNat 8 (p + 1))).toNat = (encode16 (BitVec.ofNat 8 p)).toNat + 656 ↔ 13 ≤ 7 * p % 20 := by
  rw [encode16_step hp, Nat.add_left_cancel_iff]
  split <;> simp [*]

/-- Settles O32: the steps by their carries, of which there are seven in every twenty. -/
theorem encode16FixedPointsAndSteps : Obligations.Encode16FixedPointsAndSteps := by
  unfold Obligations.Encode16FixedPointsAndSteps
  refine ⟨by decide, by decide, by decide, ?steps, ?count⟩
  case steps =>
    intro p
    rw [encode16_step p.isLt]
    split
    · exact .inr rfl
    · exact .inl rfl
  case count =>
    have hcarries : (List.range 100).countP (fun p => 13 ≤ 7 * p % 20) = 35 := by decide
    rw [← hcarries]
    refine List.countP_congr fun p hp => ?_
    simpa only [decide_eq_true_eq] using encode16_step_eq_656_iff (List.mem_range.mp hp)

/-! ### The percentage registers -/

theorem setPct_getElem_self (s : State) (i : Fin 24) (b : Byte) : (s.setPct i b).pct[i] = b :=
  Vector.getElem_set_self i.isLt

theorem setPct_getElem_of_ne (s : State) {i k : Fin 24} (b : Byte) (h : k ≠ i) : (s.setPct i b).pct[k] = s.pct[k] :=
  Vector.getElem_set_ne i.isLt k.isLt (Fin.val_ne_of_ne h.symm)

theorem dcv_toNat (s : State) (i : Fin 24) : (s.dcv i).toNat = min (s.pct[i].toNat * 13107 / 20) 65535 :=
  encode16_toNat s.pct[i]

/-- A color value depends on its own percentage alone (R112). -/
theorem dcv_congr {s t : State} {i : Fin 24} (h : t.pct[i] = s.pct[i]) : t.dcv i = s.dcv i :=
  congrArg encode16 h

/-- The color value of the register just written; the clamp of R111 makes that of R110 idle. -/
theorem dcv_setPct_clampPct_toNat (s : State) (i : Fin 24) (d : Byte) :
    ((s.setPct i (clampPct d)).dcv i).toNat = min d.toNat 100 * 13107 / 20 := by
  rw [dcv_toNat, setPct_getElem_self, clampPct_toNat]
  omega

/-- Settles O33: the write is `setPct` of the clamped byte; the read is within the invariant's bound. -/
theorem percentageWritesAreClamped : Obligations.PercentageWritesAreClamped := by
  unfold Obligations.PercentageWritesAreClamped
  refine ⟨?write, ?read⟩
  case write =>
    intro a d i s ha
    refine ⟨_, exec_wr_pct d s ha, rfl, ?own, dcv_setPct_clampPct_toNat s i d, fun k hk => ?other⟩
    case own => rw [setPct_getElem_self, clampPct_toNat]
    case other =>
      have hpct := setPct_getElem_of_ne s (clampPct d) hk
      exact ⟨hpct, dcv_congr hpct⟩
  case read =>
    intro a data s hinv hlow hhigh
    obtain ⟨i, ha⟩ : ∃ i : Fin 24, a.toNat = 0x1800 + i.val :=
      ⟨⟨a.toNat - 0x1800, by omega⟩, (Nat.add_sub_cancel' hlow).symm⟩
    exact ⟨s.pct[i], exec_rd_of_loc (decodeAddr_pct ha) data s, hinv.pctLegal i⟩

/-! ### The device color values -/

/-- The two bytes of a 16-bit quantity make it up, the high one first (R6). -/
theorem halfOf_hi_lo_toNat (v : Word) : (halfOf .hi v).toNat * 256 + (halfOf .lo v).toNat = v.toNat := by
  rw [halfOf_hi_toNat, halfOf_lo_toNat]
  omega

/-- Settles O34: the even address names the high half, the next one the low half, and the first read leaves the
percentage that the second one reads. -/
theorem colorValuesReadBigEndian : Obligations.ColorValuesReadBigEndian := by
  unfold Obligations.ColorValuesReadBigEndian
  intro i a a' data data' s ha ha'
  have hhi : decodeAddr a = .dcv i .hi := decodeAddr_dcv (k := 0) (by omega) ha
  have hlo : decodeAddr a' = .dcv i .lo := decodeAddr_dcv (k := 1) (by omega) (by omega)
  refine ⟨_, halfOf .hi (s.dcv i), halfOf .lo (s.dcv i), exec_rd_of_loc hhi data s, ?second, ?value⟩
  case second =>
    rw [exec_rd_of_loc hlo, List.append_assoc]
    rfl
  case value => rw [halfOf_hi_lo_toNat, dcv_toNat]

end Sys2Proof.Machine

/-! PROOFS. The two directions of the encoding (spec/30_encoding.md sections 1 and 2). -/

namespace Sys2Proof

/-- RASTER's command byte as the number that the assembler adds up (R63, R69). -/
theorem rasterByte_eq_ofNat (scr : Screen) : 0b00010#5 ++ scr = BitVec.ofNat 8 (0x10 + scr.toNat) := by
  revert scr
  decide

/-- Settles O8: an HT word gives back its fields, and a command byte its row of the table. -/
theorem decodeInvertsEncode : Obligations.DecodeInvertsEncode := by
  unfold Obligations.DecodeInvertsEncode
  refine ⟨fun i => ?instruction, fun i => ?carrier⟩
  case instruction =>
    cases i with
    | rd a d => exact congrArg Except.ok (decodeHT_encodeHT_read a d)
    | wr a d => exact congrArg Except.ok (decodeHT_encodeHT_write a d)
    | nop => exact decode_cmd8_nop
    | raster scr => simp only [encode, decode, decodeCmd8_raster]
  case carrier =>
    cases i with
    | rd a d => exact decodeHT_encodeHT_read a d
    | wr a d => exact decodeHT_encodeHT_write a d
    | nop => exact decodeHT_encodeHT_write cmdAddr 0x00#8
    | raster scr =>
      rw [transactionOf, encode, TableWord.transaction, decodeHT_encodeHT_write, rasterByte_eq_ofNat]
      rfl

/-- An HT word is the encoding of what it decodes to: its three fields make it up (R61). -/
theorem encode_decodeHT (tw : TransactionWord) : encode (decodeHT tw) = .ht tw := by
  have hfields := encodeHT_fields tw
  by_cases hw : tw.extractLsb' 24 1 = 1#1
  · rw [decodeHT, if_pos hw, encode, ← hw, hfields]
  · have hr : tw.extractLsb' 24 1 = 0#1 := by bv_omega
    rw [decodeHT, if_neg hw, encode, ← hr, hfields]

theorem encode_of_decode {t : TableWord} {i : Instr} (h : decode t = .ok i) : encode i = t := by
  cases t with
  | ht tw =>
    cases h
    exact encode_decodeHT tw
  | cmd8 d =>
    rcases decodeCmd8_cases d with ⟨rfl, hd⟩ | ⟨scr, rfl, hd⟩ | ⟨-, -, hd⟩ <;> rw [decode, hd] at h <;> cases h
    · rfl
    · rfl

/-- Settles O9, by the format of the word. -/
theorem encodeInvertsDecode : Obligations.EncodeInvertsDecode :=
  fun _ _ => encode_of_decode

end Sys2Proof

/-! PROOFS. What a step keeps (spec/10_state.md, spec/70_reset_and_hazards.md section 1). -/

namespace Sys2Proof.Machine

/-! ### The invariant -/

/-- The invariant speaks of the frame memories, PCT, EXP and STATUS alone. -/
theorem Inv.congr {s t : State} (hs : Inv s) (hmem : t.mem = s.mem) (hpct : t.pct = s.pct) (hexpW : t.expW = s.expW)
    (hexpH : t.expH = s.expH) (hstatus : t.status = s.status) : Inv t where
  memCanonical := by rw [hmem]; exact hs.memCanonical
  pctLegal := by rw [hpct]; exact hs.pctLegal
  expRecorded := by rw [hexpW, hexpH, hstatus]; exact hs.expRecorded
  pbWhole := by unfold pbListed pbUnlisted; rw [hmem]; exact hs.pbWhole
  okMeansWritten := by unfold pbListed; rw [hmem, hexpW, hstatus]; exact hs.okMeansWritten

/-- Settles O3: reset lists nothing of the frame memories and leaves EXP and STATUS untouched. -/
theorem invariantHoldsAtReset : Obligations.InvariantHoldsAtReset where
  memCanonical := Memory.wf_nil
  pctLegal i := by simp [State.reset]
  expRecorded := .inl ⟨rfl, rfl, rfl, nofun⟩
  pbWhole _ _ := .inr fun _ _ => rfl
  okMeansWritten _ hexp := absurd rfl hexp

theorem inv_takeReset (s : State) : Inv s.takeReset :=
  invariantHoldsAtReset.congr rfl rfl rfl rfl rfl

/-- What reads the same in a PixelBuffer's range is written whole, or not at all, as before. -/
theorem pbWhole_congr {s t : State} {n : Nat}
    (h : ∀ j < pbLen n, t.mem.read? (pbAddr n j) = s.mem.read? (pbAddr n j)) :
    (pbListed t n ↔ pbListed s n) ∧ (pbUnlisted t n ↔ pbUnlisted s n) :=
  ⟨forall₂_congr fun j hj => by rw [h j hj], forall₂_congr fun j hj => by rw [h j hj]⟩

/-- A write to SRC lies below every PixelBuffer. -/
theorem read?_storeByte_src_pb (s : State) {r c n j : Nat} (d : Byte) (hr : r < 32) (hc : c < 128) (hn : n < 8)
    (hj : j < pbLen n) : (s.storeByte (srcAddr r c) d).mem.read? (pbAddr n j) = s.mem.read? (pbAddr n j) := by
  have hsrc := srcAddr_lt hr hc
  have hpb := pbAddr_bounds hn hj
  rw [State.storeByte_mem, Memory.read?_writeBlock, if_neg]
  rw [List.length_singleton]
  omega

theorem Inv.storeByte_src {s : State} (hs : Inv s) {r c : Nat} (d : Byte) (hr : r < 32) (hc : c < 128) :
    Inv (s.storeByte (srcAddr r c) d) where
  memCanonical := by
    have hsrc := srcAddr_lt hr hc
    refine Memory.wf_writeBlock hs.memCanonical ?_
    rw [List.length_singleton, Config.storageEnd]
    omega
  pctLegal := hs.pctLegal
  expRecorded := hs.expRecorded
  pbWhole n hn := by
    obtain ⟨hlisted, hunlisted⟩ := pbWhole_congr fun j => read?_storeByte_src_pb s d hr hc hn (j := j)
    rw [hlisted, hunlisted]
    exact hs.pbWhole n hn
  okMeansWritten hok hexp :=
    (pbWhole_congr fun j => read?_storeByte_src_pb s d hr hc s.status.lastScreen.isLt (j := j)).1.mpr
      (hs.okMeansWritten hok hexp)

theorem Inv.setPct_clampPct {s : State} (hs : Inv s) (i : Fin 24) (d : Byte) : Inv (s.setPct i (clampPct d)) where
  memCanonical := hs.memCanonical
  pctLegal k := by
    by_cases hk : k = i
    · subst hk
      rw [setPct_getElem_self, clampPct_toNat]
      exact Nat.min_le_right _ _
    · rw [setPct_getElem_of_ne s _ hk]
      exact hs.pctLegal k
  expRecorded := hs.expRecorded
  pbWhole := hs.pbWhole
  okMeansWritten := hs.okMeansWritten

theorem Inv.reportCode_illegalCmd {s : State} (hs : Inv s) : Inv (s.reportCode .illegalCmd) where
  memCanonical := hs.memCanonical
  pctLegal := hs.pctLegal
  expRecorded := hs.expRecorded.imp_left fun ⟨hw, hh, hscreen, _⟩ => ⟨hw, hh, hscreen, nofun⟩
  pbWhole := hs.pbWhole
  okMeansWritten := nofun

/-- EXP_W holds the width of every screen: both widths fit a byte (R26). -/
theorem ofNat_screenWidth_toNat (n : Nat) : (BitVec.ofNat 8 (screenWidth n)).toNat = screenWidth n := by
  rcases screenWidth_cases n with ⟨h, -⟩ | ⟨h, -⟩ <;> rw [h] <;> rfl

/-- The block of a PixelBuffer lists each of its bytes. -/
theorem pbListed_storeBlock_self (s : State) (sample : Nat → Nat → Byte) (n : Nat) :
    pbListed (s.storeBlock (pbAddr n 0) (pixelBuffer sample (screenWidth n))) n := by
  intro j hj
  have hlen : (pixelBuffer sample (screenWidth n)).length = pbLen n := by rw [pixelBuffer_length, pbLen_eq]
  rw [State.storeBlock_mem, Memory.read?_writeBlock, hlen, pbAddr_eq n j, if_pos (by omega), Nat.add_sub_cancel_left,
    List.getElem?_eq_getElem (by omega)]
  nofun

/-- The block of a PixelBuffer lists nothing of another. -/
theorem read?_storeBlock_pb_other (s : State) (sample : Nat → Nat → Byte) {n n' j : Nat} (hn : n < 8) (hn' : n' < 8)
    (hne : n' ≠ n) (hj : j < pbLen n') :
    (s.storeBlock (pbAddr n 0) (pixelBuffer sample (screenWidth n))).mem.read? (pbAddr n' j) =
      s.mem.read? (pbAddr n' j) := by
  rw [State.storeBlock_mem, Memory.read?_writeBlock, pixelBuffer_length, ← pbLen_eq, if_neg]
  rintro ⟨hlow, hhigh⟩
  have hplace : pbAddr n' j = pbAddr n (pbAddr n' j - pbAddr n 0) := by rw [pbAddr_eq n (_ - _)]; omega
  exact hne (pbAddr_inj hn' hn hj (by omega) hplace).1

/-- RASTER keeps the invariant: it records a screen with its dimensions, and writes all of PB[s] or nothing (R92, R132). -/
theorem Inv.execRaster {s t : State} (hs : Inv s) {scr : Screen} (ht : execRaster scr s = .next t) : Inv t := by
  rcases execRaster_cases scr s with ⟨-, h⟩ | ⟨-, h⟩
  · cases h.symm.trans ht
    exact {
      memCanonical := Memory.wf_writeBlock hs.memCanonical <| by
        rw [pixelBuffer_length, ← pbLen_eq]
        exact pbAddr_block_le scr.isLt
      pctLegal := hs.pctLegal
      expRecorded := .inr ⟨ofNat_screenWidth_toNat _, rfl⟩
      pbWhole := fun n hn => by
        by_cases hne : n = scr.toNat
        · subst hne
          exact .inl (pbListed_storeBlock_self s s.sample scr.toNat)
        · obtain ⟨hlisted, hunlisted⟩ :=
            pbWhole_congr fun j => read?_storeBlock_pb_other s s.sample scr.isLt hn hne (j := j)
          exact (hs.pbWhole n hn).imp hlisted.mpr hunlisted.mpr
      okMeansWritten := fun _ _ => pbListed_storeBlock_self s s.sample scr.toNat }
  · cases h.symm.trans ht
    exact {
      memCanonical := hs.memCanonical
      pctLegal := hs.pctLegal
      expRecorded := .inr ⟨ofNat_screenWidth_toNat _, rfl⟩
      pbWhole := hs.pbWhole
      okMeansWritten := nofun }

theorem WriteEffect.inv {a : Addr} {d : Byte} {s t : State} (h : WriteEffect a d s t) (hs : Inv s) : Inv t := by
  cases h with
  | sample r c hr hc _ => exact hs.storeByte_src d hr hc
  | pct i => exact hs.setPct_clampPct i d
  | actW h | actH h => exact hs.congr rfl rfl rfl rfl rfl
  | nop _ _ | ignored _ => exact hs
  | raster scr _ _ _ ht => exact hs.execRaster ht
  | illegal _ _ => exact hs.reportCode_illegalCmd

/-- Settles O4: taking an event off the port does not touch what the invariant speaks of, and each effect of a step keeps
it. -/
theorem everyStepKeepsTheInvariant : Obligations.EveryStepKeepsTheInvariant := by
  unfold Obligations.EveryStepKeepsTheInvariant
  intro s t hs ht
  cases step_next_effect ht with
  | idle _ => exact hs
  | reset rest _ => exact inv_takeReset _
  | read _ rest _ _ _ _ => exact hs.congr rfl rfl rfl rfl rfl
  | write _ rest _ _ _ _ _ heffect =>
    have htaken : Inv { s with pending := rest } := hs.congr rfl rfl rfl rfl rfl
    exact heffect.inv htaken

end Sys2Proof.Machine

/-! PROOFS. Reset, steps and runs (spec/40_host_bus.md R82; spec/70_reset_and_hazards.md section 1). -/

namespace Sys2Proof.Machine

/-! ### Reset -/

/-- Where the frame memories list nothing, each byte reads as its draw (U1, U2). -/
theorem stored_of_mem_nil {s : State} (h : s.mem = []) (a : Nat) : s.stored a = Config.resetByte s.epoch a := by
  rw [State.stored, h]
  rfl

theorem reset_pct_getElem (i : Fin 24) : State.reset.pct[i] = 0x00#8 :=
  Vector.getElem_replicate i.isLt

theorem encode16_zero : encode16 0x00#8 = 0x0000#16 := by decide

/-- Settles O1: the registers by their stated values, SRC and PB as memories that list nothing. -/
theorem resetHoldsTheStatedValues : Obligations.ResetHoldsTheStatedValues := by
  unfold Obligations.ResetHoldsTheStatedValues
  refine ⟨fun i => ⟨reset_pct_getElem i, ?dcv⟩, rfl, rfl, rfl, rfl, rfl, fun r c _ _ => ?src, fun n j _ _ => ?pb⟩
  case dcv => rw [State.dcv, reset_pct_getElem, encode16_zero]
  case src => exact stored_of_mem_nil rfl (srcAddr r c)
  case pb => exact stored_of_mem_nil rfl (pbAddr n j)

theorem step_of_reset {s : State} {rest : List HostEvent} (h : s.pending = .reset :: rest) :
    step s = .next ({ s with pending := rest } : State).takeReset := by
  rw [step, State.takeEvent?, h]

/-- Settles O2: `takeReset`, field by field. -/
theorem resetEventRestoresEveryElement : Obligations.ResetEventRestoresEveryElement := by
  unfold Obligations.ResetEventRestoresEveryElement
  intro s rest h
  exact ⟨_, step_of_reset h, rfl, rfl, reset_pct_getElem, rfl, rfl, rfl, rfl, rfl, stored_of_mem_nil rfl⟩

/-! ### One step -/

theorem step_of_transaction {s : State} {tw : TransactionWord} {rest : List HostEvent}
    (h : s.pending = .transaction tw :: rest) : step s = exec (decodeHT tw) { s with pending := rest } := by
  rw [step, State.takeEvent?, h]

theorem step_of_idle {s : State} (h : s.pending = []) : step s = .next s := by
  rw [step, State.takeEvent?, h]

/-- Settles O5: the two cases of the port, a pending transaction and none. -/
theorem stepRunsTheOldestTransaction : Obligations.StepRunsTheOldestTransaction :=
  ⟨fun _ _ _ => step_of_transaction, fun _ => step_of_idle⟩

/-- The transaction that carries an instruction has the instruction's effect: a command's is that of the write to CMD
(R60, R90). -/
theorem exec_decodeHT_transactionOf (i : Instr) (s : State) : exec (decodeHT (transactionOf i)) s = exec i s := by
  cases i with
  | rd a d => exact congrArg (exec · s) (decodeHT_encodeHT_read a d)
  | wr a d => exact congrArg (exec · s) (decodeHT_encodeHT_write a d)
  | nop => rw [transactionOf, encode, TableWord.transaction, decodeHT_encodeHT_write, exec_wr_cmd_nop]
  | raster scr => rw [transactionOf, encode, TableWord.transaction, decodeHT_encodeHT_write, exec_wr_cmd_raster]

theorem step_issueNext_transactionOf (i : Instr) (s : State) : step (s.issueNext (transactionOf i)) = exec i s :=
  (step_of_transaction rfl).trans (exec_decodeHT_transactionOf i s)

/-- Where the width check passes, the host presents a table word as the word itself. -/
theorem tableTransaction_of_tableWord {nbits w : Nat} {t : TableWord} (h : tableWord nbits w = .ok t) :
    tableTransaction nbits w = t.transaction := by
  unfold tableWord at h
  unfold tableTransaction
  by_cases hn : nbits ≤ 8
  · rw [if_pos hn] at h ⊢
    split at h <;> cases h
    rfl
  · rw [if_neg hn] at h ⊢
    split at h <;> cases h
    rfl

/-- The transaction of a table word that decodes is the one that carries its instruction. -/
theorem tableTransaction_of_decodeTableWord {nbits w : Nat} {i : Instr} (h : decodeTableWord nbits w = some i) :
    tableTransaction nbits w = transactionOf i := by
  unfold decodeTableWord at h
  cases ht : tableWord nbits w with
  | error _ => rw [ht] at h; cases h
  | ok t =>
    rw [ht] at h
    replace h : (decode t).toOption = some i := h
    cases hd : decode t with
    | error _ => rw [hd] at h; cases h
    | ok _ =>
      rw [hd] at h
      cases h
      rw [tableTransaction_of_tableWord ht, transactionOf, encode_of_decode hd]

/-- Settles O6: a table word that decodes is presented as the transaction of its instruction. -/
theorem stepRunsTheIssuedInstruction : Obligations.StepRunsTheIssuedInstruction := by
  unfold Obligations.StepRunsTheIssuedInstruction
  refine ⟨step_issueNext_transactionOf, fun nbits w i s h => ?_⟩
  rw [State.withFetchWord, tableTransaction_of_decodeTableWord h, step_issueNext_transactionOf]

/-! ### Runs -/

/-- The W field is bit 24 of the word (R61). -/
theorem getLsbD_write_iff (tw : TransactionWord) : tw.getLsbD 24 = true ↔ 2 ^ 24 ≤ tw.toNat := by
  have := tw.isLt
  rw [BitVec.getLsbD, Nat.testBit_eq_decide_div_mod_eq, decide_eq_true_eq]
  omega

/-- What one event does to the host's side of the port: it leaves the queue, and an `RD` returns one byte. -/
theorem StepEffect.port {s t : State} (h : StepEffect s t) : ∃ bs, t.pending = s.pending.drop 1 ∧
    t.returned = s.returned ++ bs ∧ bs.length = (s.pending.take 1).countP HostEvent.reads := by
  cases h with
  | idle hp => exact ⟨[], by simp [hp]⟩
  | reset rest hp => exact ⟨[], by simp [hp, HostEvent.reads]⟩
  | read tw rest a d hp htw => exact ⟨[_], by rw [hp]; rfl, rfl, by simp [hp, htw, HostEvent.reads]⟩
  | write tw rest a d t hp htw ht =>
    obtain ⟨hpending, hreturned, -⟩ := ht.port
    exact ⟨[], by simp [hp, hpending], by simp [hreturned], by simp [hp, htw, HostEvent.reads]⟩

theorem runSteps_succ {s t : State} (h : step s = .next t) (k : Nat) : runSteps (k + 1) s = runSteps k t := by
  rw [runSteps, h]

/-- A run of `k` steps takes `k` events off the port and returns a byte for each `RD` among them. -/
theorem runSteps_port (k : Nat) (s : State) : ∃ t bs, runSteps k s = .next t ∧ t.pending = s.pending.drop k ∧
    t.returned = s.returned ++ bs ∧ bs.length = (s.pending.take k).countP HostEvent.reads := by
  induction k generalizing s with
  | zero => exact ⟨s, [], by simp [runSteps]⟩
  | succ k ih =>
    obtain ⟨u, hstep, heffect⟩ := step_effect s
    obtain ⟨bs, hpending, hreturned, hcount⟩ := heffect.port
    obtain ⟨t, bs', hrun, hpending', hreturned', hcount'⟩ := ih u
    refine ⟨t, bs ++ bs', by rw [runSteps_succ hstep, hrun], ?pending, ?returned, ?count⟩
    case pending => rw [hpending', hpending, List.drop_drop, Nat.add_comm]
    case returned => rw [hreturned', hreturned, List.append_assoc]
    case count =>
      rw [List.length_append, hcount, hcount', hpending, Nat.add_comm k, List.take_add, List.countP_append]

/-- Settles O7: the two kinds of transaction by bit 24, and the run by induction on the number of steps. -/
theorem everyRunServesEveryTransaction : Obligations.EveryRunServesEveryTransaction := by
  unfold Obligations.EveryRunServesEveryTransaction
  refine ⟨fun s tw rest hp => ⟨fun hread => ?read, fun hwrite => ?write⟩, runSteps_port⟩
  case read =>
    have hlt : tw.toNat < 2 ^ 24 := by
      rw [← Nat.not_le, ← getLsbD_write_iff, hread]
      decide
    rw [step_of_transaction hp, decodeHT_of_lt hlt, ← hostRead_port s rest s.returned]
    rfl
  case write =>
    obtain ⟨t, hexec, heffect⟩ :=
      execWr_effect (tw.extractLsb' 8 16) (tw.extractLsb' 0 8) { s with pending := rest }
    obtain ⟨hpending, hreturned, -⟩ := heffect.port
    refine ⟨t, ?_, hpending, hreturned, hexec⟩
    rw [step_of_transaction hp, decodeHT_of_le ((getLsbD_write_iff tw).mp hwrite)]
    exact hexec

end Sys2Proof.Machine

/-! PROOFS. Reads after reads and after writes (spec/20_memory.md section 2; spec/70_reset_and_hazards.md section 3). -/

namespace Sys2Proof.Machine

/-- A read returns the byte of its location and changes nothing else of the state. -/
theorem exec_rd (a : Addr) (data : Byte) (s : State) :
    exec (.rd a data) s = .next { s with returned := s.returned ++ [hostRead s a] } := rfl

/-- Settles O14: the second read sees the state of the first, but for the bytes returned, which no read depends on. -/
theorem readsAreIdempotent : Obligations.ReadsAreIdempotent := by
  unfold Obligations.ReadsAreIdempotent
  intro a data data' s
  refine ⟨_, _, hostRead s a, exec_rd a data s, exec_rd a data' _, rfl, ?_⟩
  have hsame : hostRead { s with returned := s.returned ++ [hostRead s a] } a = hostRead s a :=
    hostRead_port s s.pending _ a
  rw [hsame]

/-- A write and then a read of one location, where the write leaves the value `b` there. -/
theorem exec_wr_then_rd {a : Addr} {l : Loc} (hl : decodeAddr a = l) {d b : Byte} {s t : State} (data : Byte)
    (hwrite : writeLoc d s l = .next t) (hread : readLoc t l = b) (hreturned : t.returned = s.returned) :
    ∃ t, exec (.wr a d) s = .next t ∧ exec (.rd a data) t = .next { t with returned := s.returned ++ [b] } :=
  ⟨t, (exec_wr_of_loc hl d s).trans hwrite, by rw [exec_rd_of_loc hl, hread, hreturned]⟩

/-- The four bytes of the declared dimensions (R41). -/
theorem decodeAddr_act {a : Addr} (h : 0x1902 ≤ a.toNat) (h' : a.toNat ≤ 0x1905) :
    ∃ half, decodeAddr a = .actW half ∨ decodeAddr a = .actH half := by
  have haddr : a = 0x1902#16 ∨ a = 0x1903#16 ∨ a = 0x1904#16 ∨ a = 0x1905#16 := by bv_omega
  rcases haddr with rfl | rfl | rfl | rfl
  · exact ⟨.hi, .inl decodeAddr_actW_hi⟩
  · exact ⟨.lo, .inl decodeAddr_actW_lo⟩
  · exact ⟨.hi, .inr decodeAddr_actH_hi⟩
  · exact ⟨.lo, .inr decodeAddr_actH_lo⟩

/-- Settles O17: by location, a sample, a half of ACT_W or ACT_H, or a percentage. -/
theorem writtenByteReadsBack : Obligations.WrittenByteReadsBack := by
  unfold Obligations.WrittenByteReadsBack
  intro a d data s
  refine ⟨?plain, ?clamped⟩
  case plain =>
    rintro (hsrc | ⟨hlow, hhigh⟩)
    · exact exec_wr_then_rd (decodeAddr_src hsrc) data rfl (sample_storeByte_self s _ _ d) rfl
    · obtain ⟨half, hw | hh⟩ := decodeAddr_act hlow hhigh
      · exact exec_wr_then_rd hw data rfl (halfOf_withHalf half s.actW d) rfl
      · exact exec_wr_then_rd hh data rfl (halfOf_withHalf half s.actH d) rfl
  case clamped =>
    rintro ⟨hlow, hhigh⟩
    obtain ⟨i, hi⟩ : ∃ i : Fin 24, a.toNat = 0x1800 + i.val :=
      ⟨⟨a.toNat - 0x1800, by omega⟩, (Nat.add_sub_cancel' hlow).symm⟩
    rw [← clampPct_eq_ite]
    exact exec_wr_then_rd (decodeAddr_pct hi) data rfl (setPct_getElem_self s i (clampPct d)) rfl

/-! ### STATUS, field by field -/

/-- STATUS's fields at their places, and its reserved bits 0 (R27). -/
theorem Status.byte_fields (st : Status) :
    st.byte.extractLsb' 4 3 = st.lastScreen ∧ st.byte.extractLsb' 0 2 = st.code.bits ∧
      st.byte.extractLsb' 2 2 = 0#2 ∧ st.byte.getLsbD 7 = false := by
  obtain ⟨code, scr⟩ := st
  revert scr
  cases code <;> decide

theorem Code.bits_ne_three (c : Code) : c.bits ≠ 3#2 := by
  cases c <;> decide

theorem Code.bits_inj {c c' : Code} : c.bits = c'.bits ↔ c = c' := by
  revert c c'
  rintro (_ | _ | _) (_ | _ | _) <;> decide

/-- Settles O35: the fields of the byte, and that each code has its own bits. -/
theorem statusReadsItsTwoFields : Obligations.StatusReadsItsTwoFields := by
  unfold Obligations.StatusReadsItsTwoFields
  intro data s
  obtain ⟨hscreen, hcode, hreserved, htop⟩ := s.status.byte_fields
  refine ⟨s.status.byte, exec_rd_of_loc decodeAddr_status data s, hscreen, ?_, hreserved, htop, ?_⟩
  · rw [hcode]
    exact s.status.code.bits_ne_three
  · rw [hcode]
    exact ⟨Code.bits_inj (c' := .ok), Code.bits_inj (c' := .sizeMismatch), Code.bits_inj (c' := .illegalCmd)⟩

end Sys2Proof.Machine

/-! PROOFS. The exactness of the scaler (spec/42_color_scaler.md R110). -/

namespace Sys2Proof.Machine

/-- Settles O30: the clamp acts from 101 on, and 65535/100 is 13107/20 in lowest terms. -/
theorem encode16IsExactScaling : Obligations.Encode16IsExactScaling := by
  unfold Obligations.Encode16IsExactScaling
  intro p
  have hvalue := encode16_toNat p
  refine ⟨hvalue, by omega, fun hle => by omega, fun hge => ?top, by omega⟩
  case top =>
    refine BitVec.eq_of_toNat_eq ?_
    rw [hvalue, BitVec.toNat_ofNat]
    omega

end Sys2Proof.Machine

/-! PROOFS. RASTER as a loop, repeated, and on like and uniform frames (spec/41_rasterizer.md R92). -/

namespace Sys2Proof.Machine

/-! ### The block is the loop -/

/-- A loop within a loop visits the indices `p*w + x` in order, as one loop over their count does. -/
theorem foldl_range_mul {α : Type} (f : α → Nat → α) (m w : Nat) (s : α) :
    (List.range (m * w)).foldl f s =
      (List.range m).foldl (fun s p => (List.range w).foldl (fun s x => f s (p * w + x)) s) s := by
  induction m with
  | zero => rw [Nat.zero_mul]; rfl
  | succ m ih =>
    rw [Nat.succ_mul, List.range_add, List.foldl_append, ih, List.foldl_map, List.range_succ, List.foldl_append]
    rfl

theorem Memory.cells_concat (a : Nat) (bs : List Byte) (b : Byte) :
    Memory.cells a (bs ++ [b]) = Memory.cells a bs ++ [(a + bs.length, b)] := by
  induction bs generalizing a with
  | nil => rfl
  | cons v bs ih => simp [Memory.cells, ih, Nat.add_assoc, Nat.add_comm 1]

/-- Below the end of a block just written stand the block and what was below it. -/
theorem Memory.filter_lt_writeBlock (m : Memory) (a : Nat) (bs : List Byte) :
    (m.writeBlock a bs).filter (fun c => c.1 < a + bs.length) = m.filter (fun c => c.1 < a) ++ Memory.cells a bs := by
  have hkept : (m.filter (fun c => c.1 < a) ++ Memory.cells a bs).filter (fun c => c.1 < a + bs.length) =
      m.filter (fun c => c.1 < a) ++ Memory.cells a bs := by
    refine List.filter_eq_self.mpr fun c hc => decide_eq_true ?_
    rcases List.mem_append.mp hc with hbelow | hblock
    · have := of_decide_eq_true (List.mem_filter.mp hbelow).2
      omega
    · exact (Memory.mem_cells hblock).2
  have hdropped : (m.filter (fun c => a + bs.length ≤ c.1)).filter (fun c => c.1 < a + bs.length) = [] := by
    refine List.filter_eq_nil_iff.mpr fun c hc => ?_
    have := of_decide_eq_true (List.mem_filter.mp hc).2
    rw [decide_eq_true_eq]
    omega
  rw [Memory.writeBlock, List.filter_append, hkept, hdropped, List.append_nil]

/-- Past the end of a block just written stands what stood there before. -/
theorem Memory.filter_ge_writeBlock (m : Memory) (a : Nat) (bs : List Byte) {e : Nat} (he : a + bs.length ≤ e) :
    (m.writeBlock a bs).filter (fun c => e ≤ c.1) = m.filter (fun c => e ≤ c.1) := by
  have hdropped : (m.filter (fun c => c.1 < a) ++ Memory.cells a bs).filter (fun c => e ≤ c.1) = [] := by
    refine List.filter_eq_nil_iff.mpr fun c hc => ?_
    rw [decide_eq_true_eq]
    rcases List.mem_append.mp hc with hbelow | hblock
    · have := of_decide_eq_true (List.mem_filter.mp hbelow).2
      omega
    · have := (Memory.mem_cells hblock).2
      omega
  rw [Memory.writeBlock, List.filter_append, hdropped, List.nil_append, List.filter_filter]
  refine List.filter_congr fun c _ => ?_
  rw [← Bool.decide_and, decide_eq_decide]
  omega

/-- Storing one more byte right after a block is storing the longer block, as data. -/
theorem Memory.writeBlock_concat (m : Memory) (a : Nat) (bs : List Byte) (b : Byte) :
    (m.writeBlock a bs).writeBlock (a + bs.length) [b] = m.writeBlock a (bs ++ [b]) := by
  conv_lhs => rw [Memory.writeBlock]
  rw [Memory.filter_lt_writeBlock, Memory.filter_ge_writeBlock _ _ _ (by simp), Memory.writeBlock,
    Memory.cells_concat, List.length_append, ← List.append_assoc, Nat.add_assoc]
  rfl

/-- The first `k` bytes of a PixelBuffer, in storage order. -/
def pixelBytes (sample : Nat → Nat → Byte) (w k : Nat) : List Byte :=
  (List.range k).map (fun j => packByte sample (j / w) (j % w))

theorem pixelBytes_all (sample : Nat → Nat → Byte) (w : Nat) : pixelBytes sample w (4 * w) = pixelBuffer sample w := rfl

@[simp] theorem pixelBytes_length (sample : Nat → Nat → Byte) (w k : Nat) : (pixelBytes sample w k).length = k := by
  simp [pixelBytes]

theorem pixelBytes_succ (sample : Nat → Nat → Byte) (w k : Nat) :
    pixelBytes sample w (k + 1) = pixelBytes sample w k ++ [packByte sample (k / w) (k % w)] := by
  simp [pixelBytes, List.range_succ]

/-- Storing in PB[n] leaves every sample: SRC lies below it. -/
theorem sample_storeBlock_pbAddr (s : State) {n r c : Nat} (bs : List Byte) (hn : n < 8) (hr : r < 32) (hc : c < 128) :
    (s.storeBlock (pbAddr n 0) bs).sample r c = s.sample r c := by
  have hsrc := srcAddr_lt hr hc
  have hpb := pbAddr_bounds (j := 0) hn (by have := pbLen_cases n; omega)
  rw [State.sample, State.stored_storeBlock, dif_neg (by omega)]
  rfl

/-- The `k`-th byte that the loops store. -/
theorem loopByte_div_mod (n w : Nat) (s : State) (k : Nat) :
    loopByte n w s (k / w) (k % w) = s.storeByte (pbAddr n k) (packByte s.sample (k / w) (k % w)) := by
  rw [loopByte, Nat.div_add_mod']

/-- The loops after `k + 1` bytes: the staging frame stays as it stood, so the bytes are those of its PixelBuffer. -/
theorem foldl_loopByte (s : State) {n : Nat} (hn : n < 8) (k : Nat) :
    (List.range (k + 1)).foldl (fun s j => loopByte n (screenWidth n) s (j / screenWidth n) (j % screenWidth n)) s =
      s.storeBlock (pbAddr n 0) (pixelBytes s.sample (screenWidth n) (k + 1)) := by
  induction k with
  | zero => exact loopByte_div_mod n (screenWidth n) s 0
  | succ k ih =>
    rw [List.range_succ, List.foldl_append, ih, List.foldl_cons, List.foldl_nil, loopByte_div_mod]
    have hbyte : packByte (s.storeBlock (pbAddr n 0) (pixelBytes s.sample (screenWidth n) (k + 1))).sample
        ((k + 1) / screenWidth n) ((k + 1) % screenWidth n) =
          packByte s.sample ((k + 1) / screenWidth n) ((k + 1) % screenWidth n) :=
      packByte_congr fun r hr => sample_storeBlock_pbAddr s _ hn hr (column_lt n (k + 1))
    have hmem := Memory.writeBlock_concat s.mem (pbAddr n 0) (pixelBytes s.sample (screenWidth n) (k + 1))
      (packByte s.sample ((k + 1) / screenWidth n) ((k + 1) % screenWidth n))
    rw [pixelBytes_length, ← pbAddr_eq, ← pixelBytes_succ] at hmem
    rw [hbyte]
    exact congrArg (fun m => { s with mem := m }) hmem

/-- RASTER's loops leave the block that the model stores, on every memory. -/
theorem rasterLoop_eq_storeBlock (s : State) {n : Nat} (hn : n < 8) :
    rasterLoop n s = s.storeBlock (pbAddr n 0) (pixelBuffer s.sample (screenWidth n)) := by
  have hpos := screenWidth_pos n
  obtain ⟨k, hk⟩ : ∃ k, 4 * screenWidth n = k + 1 := ⟨4 * screenWidth n - 1, by omega⟩
  rw [← pixelBytes_all, hk, ← foldl_loopByte s hn, ← hk, foldl_range_mul, rasterLoop]
  refine List.foldl_ext _ _ _ fun s p _ => List.foldl_ext _ _ _ fun s x hx => ?_
  have hx := List.mem_range.mp hx
  rw [Nat.mul_comm p, Nat.mul_add_div hpos, Nat.div_eq_of_lt hx, Nat.mul_add_mod, Nat.mod_eq_of_lt hx, Nat.add_zero]

/-- Settles O26: the loops leave the block itself, so both clauses follow from what a successful RASTER leaves; the memory
need not be canonical. -/
theorem rasterBlockIsTheLoop : Obligations.RasterBlockIsTheLoop := by
  unfold Obligations.RasterBlockIsTheLoop
  intro scr s t hw hh ht
  cases (execRaster_of_match ((dimsMatch_iff s scr).mpr ⟨hw, hh⟩)).symm.trans ht
  rw [rasterLoop_eq_storeBlock s scr.isLt]
  exact ⟨fun a => State.stored_congr rfl rfl a, fun _ => rfl⟩

/-! ### A RASTER repeated -/

/-- A screen's PixelBuffer depends only on the samples of the staging frame. -/
theorem pixelBuffer_congr {sample sample' : Nat → Nat → Byte} (n : Nat)
    (h : ∀ r < 32, ∀ c < 128, sample r c = sample' r c) :
    pixelBuffer sample (screenWidth n) = pixelBuffer sample' (screenWidth n) :=
  List.map_congr_left fun j _ => packByte_congr fun r hr => h r hr _ (column_lt n j)

/-- Settles O27: the first RASTER leaves the dimensions and the samples, so the second makes the same check and stores the
same block again. -/
theorem repeatedRasterChangesNothing : Obligations.RepeatedRasterChangesNothing := by
  unfold Obligations.RepeatedRasterChangesNothing
  intro scr s t ht
  replace ht : execRaster scr s = .next t := ht
  show execRaster scr t = .next t
  have hblock : pixelBuffer t.sample (screenWidth scr.toNat) = pixelBuffer s.sample (screenWidth scr.toNat) :=
    pixelBuffer_congr _ fun r hr c hc => execRaster_sample ht hr hc
  have hdims : t.dimsMatch scr = s.dimsMatch scr := by rw [(execRaster_record ht).1]; rfl
  rcases execRaster_cases scr s with ⟨hm, h⟩ | ⟨hm, h⟩
  · have hagain := execRaster_of_match (hdims.trans hm)
    rw [hblock] at hagain
    cases h.symm.trans ht
    refine hagain.trans (congrArg Host.Outcome.next ?_)
    simp only [State.storeBlock, State.recordRaster, State.reportCode, Memory.writeBlock_writeBlock]
  · have hagain := execRaster_of_mismatch (hdims.trans hm)
    cases h.symm.trans ht
    exact hagain

/-! ### What a RASTER's result depends on -/

/-- A packed byte depends only on which samples of its column are black. -/
theorem packByte_congr_black {sample sample' : Nat → Nat → Byte} {p x : Nat}
    (h : ∀ r < 32, (sample r x = 0x00#8 ↔ sample' r x = 0x00#8)) : packByte sample p x = packByte sample' p x := by
  refine BitVec.eq_of_getLsbD_eq fun z hz => ?_
  rw [packByte_bit _ _ _ hz, packByte_bit _ _ _ hz, Bool.eq_iff_iff, black_iff, black_iff, h _ (bandRow_lt p z)]

/-- STATUS after a RASTER whose check succeeds (R92). -/
theorem execRaster_status_of_match {scr : Screen} {s t : State} (hm : s.dimsMatch scr = true)
    (ht : execRaster scr s = .next t) : t.status = { code := .ok, lastScreen := scr } := by
  cases (execRaster_of_match hm).symm.trans ht
  rfl

/-- Settles O28: both RASTERs pass their check, and each of their bytes is made of one column of the screen's own. -/
theorem rasterSeesOnlyBlacknessWithinTheWidth : Obligations.RasterSeesOnlyBlacknessWithinTheWidth := by
  unfold Obligations.RasterSeesOnlyBlacknessWithinTheWidth
  intro scr s s' t t' hactW hactH hw hh hblack ht ht'
  have hm := (dimsMatch_iff s scr).mpr ⟨hw, hh⟩
  have hm' := (dimsMatch_iff s' scr).mpr ⟨hactW ▸ hw, hactH ▸ hh⟩
  obtain ⟨hframe, -⟩ := execRaster_record ht
  obtain ⟨hframe', -⟩ := execRaster_record ht'
  refine ⟨?status, ?expW, ?expH, fun j hj => ?pixels⟩
  case status =>
    rw [execRaster_status_of_match hm ht, execRaster_status_of_match hm' ht']
  case expW => rw [hframe, hframe']
  case expH => rw [hframe, hframe']
  case pixels =>
    rw [execRaster_pixelByte_index hm ht hj, execRaster_pixelByte_index hm' ht' hj]
    exact packByte_congr_black fun r hr => hblack r _ hr (Nat.mod_lt j (screenWidth_pos _))

/-- A column without a black sample packs to 0x00. -/
theorem packByte_white {sample : Nat → Nat → Byte} {x : Nat} (p : Nat) (h : ∀ r < 32, sample r x ≠ 0x00#8) :
    packByte sample p x = 0x00#8 := by
  refine BitVec.eq_of_getLsbD_eq fun z hz => ?_
  rw [packByte_bit _ _ _ hz, BitVec.getLsbD_zero, ← Bool.not_eq_true, black_iff]
  exact h _ (bandRow_lt p z)

/-- A column of black samples packs to 0xFF. -/
theorem packByte_black {sample : Nat → Nat → Byte} {x : Nat} (p : Nat) (h : ∀ r < 32, sample r x = 0x00#8) :
    packByte sample p x = 0xFF#8 := by
  refine BitVec.eq_of_getLsbD_eq fun z hz => ?_
  have hones : (0xFF#8).getLsbD z = true := by revert z; decide
  rw [packByte_bit _ _ _ hz, hones, black_iff]
  exact h _ (bandRow_lt p z)

/-- Settles O29: each byte is packed from one column of the frame. -/
theorem uniformFramesGiveUniformBuffers : Obligations.UniformFramesGiveUniformBuffers := by
  unfold Obligations.UniformFramesGiveUniformBuffers
  intro scr s hw hh
  have hm := (dimsMatch_iff s scr).mpr ⟨hw, hh⟩
  obtain ⟨t, ht⟩ := execRaster_completes scr s
  refine ⟨t, ht, fun hwhite j hj => ?white, fun hblack j hj => ?black⟩
  case white =>
    rw [execRaster_pixelByte_index hm ht hj]
    exact packByte_white _ fun r hr => hwhite r _ hr (column_lt _ j)
  case black =>
    rw [execRaster_pixelByte_index hm ht hj]
    exact packByte_black _ fun r hr => hblack r _ hr (column_lt _ j)

end Sys2Proof.Machine

/-! PROOFS. Who changes what, over steps and runs (spec/10_state.md; spec/20_memory.md section 4). -/

namespace Sys2Proof.Machine

/-! ### STATUS and EXP -/

/-- A write changes CODE only as a command that is not NOP (R32). -/
theorem WriteEffect.code {a : Addr} {d : Byte} {s t : State} (h : WriteEffect a d s t)
    (hne : t.status.code ≠ s.status.code) : a = cmdAddr ∧ decodeCmd8 d ≠ .nop := by
  cases h with
  | raster scr _ ha hd _ => exact ⟨ha, by rw [hd]; nofun⟩
  | illegal ha hd => exact ⟨ha, by rw [hd]; nofun⟩
  | sample | pct | actW | actH | nop | ignored => exact absurd rfl hne

/-- A write changes LAST_SCREEN and EXP only as the RASTER of the screen that LAST_SCREEN then holds (R27, R92). -/
theorem WriteEffect.record {a : Addr} {d : Byte} {s t : State} (h : WriteEffect a d s t)
    (hne : t.status.lastScreen ≠ s.status.lastScreen ∨ t.expW ≠ s.expW ∨ t.expH ≠ s.expH) :
    a = cmdAddr ∧ ∃ scr, decodeCmd8 d = .raster scr ∧ t.status.lastScreen = scr := by
  cases h with
  | raster scr _ ha hd ht => exact ⟨ha, scr, hd, (execRaster_record ht).2⟩
  | sample | pct | actW | actH | nop | illegal | ignored => simp at hne

/-- Settles O36: of the events, a reset and a write reach STATUS and EXP, and of the writes the commands. -/
theorem onlyCommandsChangeStatus : Obligations.OnlyCommandsChangeStatus := by
  unfold Obligations.OnlyCommandsChangeStatus
  intro s t ht
  cases step_next_effect ht with
  | idle _ | read => exact ⟨fun hne => absurd rfl hne, fun hne => by simp at hne⟩
  | reset rest hp => exact ⟨fun _ => .inl (by rw [hp]; rfl), fun _ => .inl (by rw [hp]; rfl)⟩
  | write tw rest a d _ hp htw heffect =>
    have hhead : s.pending.head? = some (.transaction tw) := by rw [hp]; rfl
    refine ⟨fun hne => .inr ?code, fun hne => .inr ?record⟩
    case code =>
      obtain ⟨rfl, hd⟩ := heffect.code hne
      exact ⟨tw, d, hhead, htw, hd⟩
    case record =>
      obtain ⟨rfl, scr, hd, hscreen⟩ := heffect.record hne
      exact ⟨tw, d, scr, hhead, htw, hd, hscreen⟩

/-! ### PixelBuffers -/

theorem rewritesNext_of_reset {s : State} {rest : List HostEvent} (hp : s.pending = .reset :: rest) (n : Nat) :
    s.rewritesNext n = true := by
  rw [State.rewritesNext, hp]

/-- The RASTER that is served next writes its PixelBuffer exactly when its check succeeds. -/
theorem rewritesNext_of_raster {s : State} {tw : TransactionWord} {rest : List HostEvent} {d : Byte} {scr : Screen}
    (hp : s.pending = .transaction tw :: rest) (htw : decodeHT tw = .wr cmdAddr d) (hd : decodeCmd8 d = .raster scr) :
    s.rewritesNext scr.toNat = s.dimsMatch scr := by
  simp [State.rewritesNext, hp, htw, hd]

theorem pixelByte_congr {s t : State} (hmem : t.mem = s.mem) (hepoch : t.epoch = s.epoch) (n j : Nat) :
    t.pixelByte n j = s.pixelByte n j :=
  State.stored_congr hmem hepoch (pbAddr n j)

/-- A step that does not rewrite PB[n] leaves it: a sample's write and other screens' RASTERs go elsewhere, and a RASTER
of its own then fails its check (R22; R92, corner case 1). -/
theorem step_pixelByte {s t : State} {n j : Nat} (hn : n < 8) (hj : j < pbLen n) (ht : step s = .next t)
    (hkeep : s.rewritesNext n = false) : t.pixelByte n j = s.pixelByte n j := by
  cases step_next_effect ht with
  | idle _ => rfl
  | reset rest hp => rw [rewritesNext_of_reset hp] at hkeep; cases hkeep
  | read => exact pixelByte_congr rfl rfl n j
  | write tw rest a d _ hp htw heffect =>
    cases heffect with
    | sample r c hr hc _ => exact pixelByte_storeByte_src _ d hr hc hn hj
    | pct | actW | actH | nop | illegal | ignored => exact pixelByte_congr rfl rfl n j
    | raster scr _ ha hd hraster =>
      by_cases hne : n = scr.toNat
      · subst ha hne
        rw [rewritesNext_of_raster hp htw hd] at hkeep
        have hmismatch : State.dimsMatch { s with pending := rest } scr = false := hkeep
        obtain ⟨-, hmem⟩ := execRaster_frame_of_mismatch hmismatch hraster
        have hepoch : t.epoch = s.epoch := by rw [(execRaster_record hraster).1]
        exact pixelByte_congr hmem hepoch _ j
      · exact execRaster_pixelByte_other hraster hn hne hj

/-- Settles O37: `step_pixelByte` at every byte of the PixelBuffer. -/
theorem onlyRasterWritesAPixelBuffer : Obligations.OnlyRasterWritesAPixelBuffer :=
  fun _ _ _ hn ht hkeep _ hj => step_pixelByte hn hj ht hkeep

/-- A run none of whose steps rewrites PB[n] leaves it. -/
theorem runSteps_pixelByte {n j : Nat} (hn : n < 8) (hj : j < pbLen n) {k : Nat} {s t : State}
    (hkeep : ∀ i < k, ∀ v, runSteps i s = .next v → v.rewritesNext n = false) (ht : runSteps k s = .next t) :
    t.pixelByte n j = s.pixelByte n j := by
  induction k generalizing s with
  | zero => cases ht; rfl
  | succ k ih =>
    obtain ⟨u, hstep, -⟩ := step_effect s
    have hfirst : s.rewritesNext n = false := hkeep 0 (by omega) s rfl
    have hrest : ∀ i < k, ∀ v, runSteps i u = .next v → v.rewritesNext n = false :=
      fun i hi v hv => hkeep (i + 1) (by omega) v (by rw [runSteps_succ hstep, hv])
    rw [runSteps_succ hstep] at ht
    exact (ih hrest ht).trans (step_pixelByte hn hj hstep hfirst)

/-- Settles O39: the RASTER's bits show its frame (R94), and the run after it leaves them. -/
theorem pixelBufferIsASnapshot : Obligations.PixelBufferIsASnapshot := by
  unfold Obligations.PixelBufferIsASnapshot
  intro scr s t u k hw hh ht hkeep hu r x hr hx
  rw [runSteps_pixelByte scr.isLt (plane_index_lt (by omega) hx) hkeep hu]
  exact inverseMapReconstructsThePixels.1 scr s t r x hw hh ht hr hx

/-! ### Samples -/

theorem sample_congr {s t : State} (hmem : t.mem = s.mem) (hepoch : t.epoch = s.epoch) (r c : Nat) :
    t.sample r c = s.sample r c :=
  State.stored_congr hmem hepoch (srcAddr r c)

/-- A write changes a sample only at the sample's own address, and to its own data (R21). -/
theorem WriteEffect.sample_ne {a : Addr} {d : Byte} {s t : State} (h : WriteEffect a d s t) {r c : Nat} (hr : r < 32)
    (hc : c < 128) (hne : t.sample r c ≠ s.sample r c) : a.toNat = srcAddr r c ∧ d = t.sample r c := by
  cases h with
  | sample r' c' _ _ ha =>
    by_cases haddr : srcAddr r c = srcAddr r' c'
    · refine ⟨ha.symm.trans haddr.symm, ?_⟩
      rw [State.sample, haddr, State.stored_storeByte, if_pos rfl]
    · exact absurd (stored_storeByte_of_ne s d haddr) hne
  | pct | actW | actH | nop | illegal | ignored => exact absurd (sample_congr rfl rfl r c) hne
  | raster _ _ _ _ ht => exact absurd (execRaster_sample ht hr hc) hne

/-- Settles O38: of the events, only a reset and a write change a sample. -/
theorem onlyItsOwnWriteChangesASample : Obligations.OnlyItsOwnWriteChangesASample := by
  unfold Obligations.OnlyItsOwnWriteChangesASample
  intro s t r c hr hc ht hne
  cases step_next_effect ht with
  | idle _ | read => exact absurd (sample_congr rfl rfl r c) hne
  | reset rest hp => exact .inl (by rw [hp]; rfl)
  | write tw rest a d _ hp htw heffect =>
    obtain ⟨haddr, hdata⟩ := heffect.sample_ne hr hc hne
    exact .inr ⟨tw, a, by rw [hp]; rfl, haddr, hdata ▸ htw⟩

end Sys2Proof.Machine

/-! PROOFS. The pseudo-instructions and the boot sequence (spec/30_encoding.md R69; spec/70_reset_and_hazards.md R152). -/

namespace Sys2Proof.Machine

/-! ### Runs of issued instructions -/

/-- One step of a run serves the oldest issued instruction. -/
theorem runSteps_transactionOf {s t : State} {i : Instr} {rest : List HostEvent}
    (hp : s.pending = .transaction (transactionOf i) :: rest) (h : exec i { s with pending := rest } = .next t) (k : Nat) :
    runSteps (k + 1) s = runSteps k t :=
  runSteps_succ (((step_of_transaction hp).trans (exec_decodeHT_transactionOf i _)).trans h) k

/-- An issued read appends the byte of its location. -/
theorem runSteps_readAt {s : State} {a : Nat} {rest : List HostEvent} {l : Loc}
    (hp : s.pending = .transaction (transactionOf (readAt a)) :: rest) (hl : decodeAddr (BitVec.ofNat 16 a) = l) (k : Nat) :
    runSteps (k + 1) s = runSteps k { s with returned := s.returned ++ [readLoc s l], pending := rest } := by
  have hread : hostRead { s with pending := rest } (BitVec.ofNat 16 a) = readLoc s l :=
    (hostRead_port s rest s.returned _).trans (hostRead_of_loc hl s)
  rw [runSteps_transactionOf hp (exec_rd _ _ _), hread]

/-- Writing both bytes of a 16-bit quantity, the high one first, writes the number (R6). -/
theorem withHalf_lo_withHalf_hi (v : Word) (n : Nat) :
    withHalf .lo (withHalf .hi v (BitVec.ofNat 8 (n / 256))) (BitVec.ofNat 8 (n % 256)) = BitVec.ofNat 16 n := by
  refine BitVec.eq_of_toNat_eq ?_
  simp only [withHalf_lo_eq, withHalf_hi_eq, BitVec.toNat_ofNat]
  omega

/-- SETDIM's four writes leave the dimensions and whatever the host issues next. -/
theorem runSteps_setdim {s : State} {w h : Nat} {rest : List HostEvent}
    (hp : s.pending = eventsOf (Pseudo.setdim w h).expand ++ rest) (k : Nat) :
    runSteps (k + 4) s =
      runSteps k { s with actW := BitVec.ofNat 16 w, actH := BitVec.ofNat 16 h, pending := rest } := by
  refine (runSteps_transactionOf hp (exec_wr_of_loc decodeAddr_actW_hi _ _) _).trans ?_
  refine (runSteps_transactionOf rfl (exec_wr_of_loc decodeAddr_actW_lo _ _) _).trans ?_
  refine (runSteps_transactionOf rfl (exec_wr_of_loc decodeAddr_actH_hi _ _) _).trans ?_
  refine (runSteps_transactionOf rfl (exec_wr_of_loc decodeAddr_actH_lo _ _) _).trans ?_
  rw [← withHalf_lo_withHalf_hi s.actW w, ← withHalf_lo_withHalf_hi s.actH h]
  rfl

/-! ### Each pseudo-instruction -/

/-- Every expansion is made of `readAt`, which writes DATA 0, and of writes (R61). -/
theorem Pseudo.expand_wf (p : Pseudo) : ∀ i ∈ p.expand, i.wf = true := by
  have hread (a : Nat) : (readAt a).wf = true := rfl
  have hwrite (a d : Nat) : (writeAt a d).wf = true := rfl
  cases p <;> simp [Pseudo.expand, hread, hwrite]

theorem exec_writeAt_raster (scr : Screen) (s : State) :
    exec (writeAt 0x1900 (0x10 + scr.toNat)) s = exec (.raster scr) s := by
  rw [← exec_wr_cmd_raster, rasterByte_eq_ofNat]
  rfl

theorem decodeAddr_srcAddr {a : Addr} {r c : Nat} (hr : r < 32) (hc : c < 128) (ha : a.toNat = srcAddr r c) :
    decodeAddr a = .src r c := by
  unfold srcAddr Config.srcCols at ha
  have hrow : a.toNat / 128 = r := by omega
  have hcol : a.toNat % 128 = c := by omega
  rw [decodeAddr_src (by omega), hrow, hcol]

theorem runSteps_ldpix {r c v : Nat} (s : State) (h : (Pseudo.ldpix r c v).wf = true) :
    ∃ t, runSteps 1 (s.issuing (Pseudo.ldpix r c v).expand) = .next t ∧ t.sample r c = BitVec.ofNat 8 v := by
  simp only [Pseudo.wf, Bool.and_eq_true, decide_eq_true_eq] at h
  obtain ⟨⟨hr, hc⟩, -⟩ := h
  have hloc : decodeAddr (BitVec.ofNat 16 (r * 128 + c)) = .src r c :=
    decodeAddr_srcAddr hr hc (Nat.mod_eq_of_lt (by omega))
  exact ⟨_, runSteps_transactionOf rfl (exec_wr_of_loc hloc _ _) 0, sample_storeByte_self _ r c _⟩

theorem runSteps_setpct {n c v : Nat} {i : Fin 24} (s : State) (h : (Pseudo.setpct n c v).wf = true)
    (hi : i.val = 3 * n + c) :
    ∃ t, runSteps 1 (s.issuing (Pseudo.setpct n c v).expand) = .next t ∧ t.pct[i].toNat = min v 100 := by
  simp only [Pseudo.wf, Bool.and_eq_true, decide_eq_true_eq] at h
  obtain ⟨-, hv⟩ := h
  have haddr : (BitVec.ofNat 16 (0x1800 + 3 * n + c)).toNat = 0x1800 + i.val := by
    rw [BitVec.toNat_ofNat]
    omega
  refine ⟨_, runSteps_transactionOf rfl (exec_wr_pct _ _ haddr) 0, ?_⟩
  rw [setPct_getElem_self, clampPct_toNat, BitVec.toNat_ofNat, Nat.mod_eq_of_lt hv]

theorem runSteps_rdpb {n j : Nat} (s : State) (h : (Pseudo.rdpb n j).wf = true) :
    runSteps 1 (s.issuing (Pseudo.rdpb n j).expand) =
      .next { s with returned := s.returned ++ [s.pixelByte n j], pending := [] } := by
  simp only [Pseudo.wf, Bool.and_eq_true, decide_eq_true_eq] at h
  obtain ⟨hn, hj⟩ := h
  have hbounds := pbAddr_bounds hn hj
  have hloc : decodeAddr (BitVec.ofNat 16 (pbAddr n j)) = .pb n j :=
    decodeAddr_pbAddr hn hj (Nat.mod_eq_of_lt (by omega))
  exact runSteps_readAt rfl hloc 0

theorem runSteps_rddcv {n c : Nat} {i : Fin 24} (s : State) (hi : i.val = 3 * n + c) :
    ∃ h l : Byte, runSteps 2 (s.issuing (Pseudo.rddcv n c).expand) =
      .next { s with returned := s.returned ++ [h, l], pending := [] } ∧
      h.toNat * 256 + l.toNat = (encode16 s.pct[i]).toNat := by
  have hhi : decodeAddr (BitVec.ofNat 16 (0x1820 + 2 * (3 * n + c))) = .dcv i .hi :=
    decodeAddr_dcv (k := 0) (by omega) (by rw [BitVec.toNat_ofNat]; omega)
  have hlo : decodeAddr (BitVec.ofNat 16 (0x1821 + 2 * (3 * n + c))) = .dcv i .lo :=
    decodeAddr_dcv (k := 1) (by omega) (by rw [BitVec.toNat_ofNat]; omega)
  refine ⟨halfOf .hi (s.dcv i), halfOf .lo (s.dcv i), ?run, halfOf_hi_lo_toNat _⟩
  refine (runSteps_readAt rfl hhi 1).trans ((runSteps_readAt rfl hlo 0).trans ?_)
  simp only [List.append_assoc]
  rfl

theorem runSteps_rdseg {n p g k : Nat} (s : State) (h : (Pseudo.rdseg n p g k).wf = true) :
    runSteps 1 (s.issuing (Pseudo.rdseg n p g k).expand) =
      .next { s with returned := s.returned ++ [s.segByte n p g k], pending := [] } := by
  simp only [Pseudo.wf, Bool.and_eq_true, decide_eq_true_eq] at h
  obtain ⟨⟨⟨hn, hp⟩, hg⟩, hk⟩ := h
  have hloc : decodeAddr (BitVec.ofNat 16 (0x2000 + 512 * n + 128 * p + 16 * g + k)) = .seg n p g k :=
    decodeAddr_seg hn hp hg hk (Nat.mod_eq_of_lt (by omega))
  exact runSteps_readAt rfl hloc 0

/-- Settles O41, one lemma for each pseudo-instruction. -/
theorem pseudoInstructionsReachTheirPlaces : Obligations.PseudoInstructionsReachTheirPlaces := by
  unfold Obligations.PseudoInstructionsReachTheirPlaces
  refine ⟨fun p _ => p.expand_wf, ?nop, ?raster, fun r c v => runSteps_ldpix, ?setdim, fun n c v s i => runSteps_setpct s,
    fun n j => runSteps_rdpb, fun n c s i _ => runSteps_rddcv s, fun n p g k => runSteps_rdseg, ?rdstat⟩
  case nop => exact fun s => congrArg (fun o => [o]) (exec_wr_cmd_nop s)
  case raster => exact fun scr s => congrArg (fun o => [o]) (exec_writeAt_raster scr s)
  case setdim => exact fun w h s _ => runSteps_setdim (rest := []) rfl 0
  case rdstat => exact fun s => runSteps_readAt rfl decodeAddr_status 0

/-! ### The boot sequence -/

/-- The STATUS byte that the host awaits in step 4 of R152. -/
theorem Status.byte_of_ok (scr : Screen) :
    ({ code := .ok, lastScreen := scr } : Status).byte = BitVec.ofNat 8 (scr.toNat * 16) := by
  revert scr
  decide

theorem ofNat16_screenWidth_toNat (n : Nat) : (BitVec.ofNat 16 (screenWidth n)).toNat = screenWidth n := by
  rcases screenWidth_cases n with ⟨h, -⟩ | ⟨h, -⟩ <;> rw [h] <;> rfl

/-- The state that RASTER finds in the boot sequence: the screen's dimensions declared, and the read of STATUS to come. -/
def State.declared (s : State) (scr : Screen) : State :=
  { s with actW := BitVec.ofNat 16 (screenWidth scr.toNat), actH := 32#16, pending := eventsOf Pseudo.rdstat.expand }

theorem declared_dimsMatch (s : State) (scr : Screen) : (s.declared scr).dimsMatch scr = true :=
  (dimsMatch_iff (s.declared scr) scr).mpr ⟨ofNat16_screenWidth_toNat scr.toNat, rfl⟩

/-- SETDIM's four steps of the boot sequence, and RASTER's. -/
theorem runSteps_boot_raster {scr : Screen} {s t : State} (ht : execRaster scr (s.declared scr) = .next t) (k : Nat) :
    runSteps (k + 5) (s.issuing ((Pseudo.setdim (screenWidth scr.toNat) 32).expand ++
      (Pseudo.raster scr.toNat).expand ++ Pseudo.rdstat.expand)) = runSteps k t :=
  (runSteps_setdim rfl (k + 1)).trans
    (runSteps_transactionOf rfl ((exec_writeAt_raster scr (s.declared scr)).trans ht) k)

/-- Settles O40: SETDIM declares what RASTER's check expects, so RASTER packs the frame and STATUS reads OK. -/
theorem bootSequenceShowsThePixels : Obligations.BootSequenceShowsThePixels := by
  unfold Obligations.BootSequenceShowsThePixels
  intro scr s
  have hm := declared_dimsMatch s scr
  obtain ⟨t, ht⟩ := execRaster_completes scr (s.declared scr)
  obtain ⟨hframe, -⟩ := execRaster_record ht
  have hpending : t.pending = eventsOf Pseudo.rdstat.expand := by rw [hframe]; rfl
  have hstatus : t.status.byte = BitVec.ofNat 8 (scr.toNat * 16) := by
    rw [execRaster_status_of_match hm ht, Status.byte_of_ok]
  refine ⟨{ t with returned := t.returned ++ [t.status.byte], pending := [] }, ?run, rfl, ?returned, ?actW, ?actH, ?pct,
    fun p x z hp hx hz => ?bits⟩
  case run => exact (runSteps_boot_raster ht 1).trans (runSteps_readAt hpending decodeAddr_status 0)
  case returned => rw [hstatus, hframe]; rfl
  case actW => rw [hframe]; exact ofNat16_screenWidth_toNat scr.toNat
  case actH => rw [hframe]; rfl
  case pct => rw [hframe]; rfl
  case bits =>
    exact (congrArg (BitVec.getLsbD · z) (pixelByte_congr rfl rfl _ _)).trans (execRaster_bit hm ht hp hx hz)

end Sys2Proof.Machine

/-! PROOFS. The assembler's text (spec/30_encoding.md R68). -/

namespace Sys2Proof.Machine

/-! ### What a written line assembles to -/

/-- No mnemonic of a pseudo-instruction holds a separator. -/
theorem Pseudo.mnemonic_plain (p : Pseudo) : (∀ c ∈ p.mnemonic, plainChar c = true) ∧ p.mnemonic ≠ [] := by
  cases p <;> simp [Pseudo.mnemonic, plainChar]

theorem rd_plain : (∀ c ∈ ['R', 'D'], plainChar c = true) ∧ ['R', 'D'] ≠ [] := by simp [plainChar]

theorem wr_plain : (∀ c ∈ ['W', 'R'], plainChar c = true) ∧ ['W', 'R'] ≠ [] := by simp [plainChar]

/-- A written statement without an expected byte assembles to its transactions. -/
theorem assembleLine_lineText {m : List Char} {args : List Numeral} {is : List Instr} (c : Option (List Char))
    (hm : (∀ x ∈ m, plainChar x = true) ∧ m ≠ []) (his : statement? m (args.map Numeral.value) = some is) :
    assembleLine (lineText m args none c) = some { instrs := is, expected := none } := by
  obtain ⟨hplain, hne⟩ := hm
  rw [assembleLine, tokens_lineText m args none c hplain hne]
  simp only [expectedTokens, List.append_nil, operands?_operandTokens, his]

theorem assembleLine_rd {a : Numeral} {e : Option Numeral} (c : Option (List Char)) (ha : a.value < 65536)
    (he : ∀ v, e = some v → v.value < 256) :
    assembleLine (lineText ['R', 'D'] [a] e c) =
      some { instrs := [.rd (BitVec.ofNat 16 a.value) 0x00#8], expected := e.map fun v => BitVec.ofNat 8 v.value } := by
  have hstatement : statement? ['R', 'D'] [a.value] = some [readAt a.value] := by
    simp only [statement?, if_pos ha]
    rfl
  rw [assembleLine, tokens_lineText ['R', 'D'] [a] e c rd_plain.1 rd_plain.2]
  cases e with
  | none => simp only [operands?_one, hstatement, Option.map_none]; rfl
  | some v =>
    have hbyte : isOneRead [readAt a.value] = true ∧ v.value < 256 := ⟨rfl, he v rfl⟩
    simp only [operands?_one, hstatement, Option.map_some, if_pos hbyte]
    rfl

theorem assembleLine_wr {a d : Numeral} (c : Option (List Char)) (ha : a.value < 65536) (hd : d.value < 256) :
    assembleLine (lineText ['W', 'R'] [a, d] none c) =
      some { instrs := [.wr (BitVec.ofNat 16 a.value) (BitVec.ofNat 8 d.value)], expected := none } := by
  refine assembleLine_lineText c wr_plain ?_
  have hrange : a.value < 65536 ∧ d.value < 256 := ⟨ha, hd⟩
  simp only [statement?, List.map_cons, List.map_nil, if_pos hrange]
  rfl

theorem assembleLine_pseudo {p : Pseudo} {args : List Numeral} (c : Option (List Char)) (hp : p.wf = true)
    (hargs : args.map Numeral.value = p.operands) :
    assembleLine (lineText p.mnemonic args none c) = some { instrs := p.expand, expected := none } :=
  assembleLine_lineText c p.mnemonic_plain (hargs ▸ statement?_pseudo p hp)

theorem assembleLine_commentText (c : Option (List Char)) :
    assembleLine (commentText c) = some { instrs := [], expected := none } := by
  rw [assembleLine, withoutComment_commentText]
  cases c <;> rfl

/-! ### What the assembler accepts -/

theorem expandChecked_wf {p : Pseudo} {is : List Instr} (h : expandChecked p = some is) : ∀ i ∈ is, i.wf = true := by
  unfold expandChecked at h
  split at h
  · cases h
    exact p.expand_wf
  · cases h

/-- A statement is a read, a write or an expansion, so it is in the assembler's form: mnemonic by mnemonic for each number
of operands. -/
theorem statement?_wf {m : List Char} {args : List Nat} {is : List Instr} (h : statement? m args = some is) :
    ∀ i ∈ is, i.wf = true := by
  match args with
  | [] =>
    rcases ite_eq_iff.mp h with ⟨-, hnop⟩ | ⟨-, h⟩
    · exact expandChecked_wf hnop
    · obtain ⟨-, hrdstat⟩ := Option.ite_none_right_eq_some.mp h
      exact expandChecked_wf hrdstat
  | [_] =>
    rcases ite_eq_iff.mp h with ⟨-, hrd⟩ | ⟨-, h⟩
    · cases (Option.ite_none_right_eq_some.mp hrd).2
      exact List.forall_mem_singleton.mpr rfl
    · obtain ⟨-, hraster⟩ := Option.ite_none_right_eq_some.mp h
      exact expandChecked_wf hraster
  | [_, _] =>
    rcases ite_eq_iff.mp h with ⟨-, hwr⟩ | ⟨-, h⟩
    · cases (Option.ite_none_right_eq_some.mp hwr).2
      exact List.forall_mem_singleton.mpr rfl
    rcases ite_eq_iff.mp h with ⟨-, hsetdim⟩ | ⟨-, h⟩
    · exact expandChecked_wf hsetdim
    rcases ite_eq_iff.mp h with ⟨-, hrdpb⟩ | ⟨-, h⟩
    · exact expandChecked_wf hrdpb
    · obtain ⟨-, hrddcv⟩ := Option.ite_none_right_eq_some.mp h
      exact expandChecked_wf hrddcv
  | [_, _, _] =>
    rcases ite_eq_iff.mp h with ⟨-, hldpix⟩ | ⟨-, h⟩
    · exact expandChecked_wf hldpix
    · obtain ⟨-, hsetpct⟩ := Option.ite_none_right_eq_some.mp h
      exact expandChecked_wf hsetpct
  | [_, _, _, _] =>
    obtain ⟨-, hrdseg⟩ := Option.ite_none_right_eq_some.mp h
    exact expandChecked_wf hrdseg
  | _ :: _ :: _ :: _ :: _ :: _ => cases h

/-- What an accepted line's transactions are: none, or those of one statement. -/
theorem assembleLine_instrs {line : List Char} {x : ListingLine} (h : assembleLine line = some x) :
    x.instrs = [] ∨ ∃ m args, statement? m args = some x.instrs := by
  unfold assembleLine at h
  split at h
  · cases h
    exact .inl rfl
  · split at h
    · split at h
      · cases h
        exact .inr ⟨_, _, ‹statement? _ _ = some _›⟩
      · split at h
        · cases h
          exact .inr ⟨_, _, ‹statement? _ _ = some _›⟩
        · cases h
      · cases h
    · cases h
  · cases h

/-- A program assembles exactly when each of its lines does (R68). -/
theorem assemble_iff (lines : List (List Char)) (xs : List ListingLine) :
    assemble lines = some xs ↔ lines.map assembleLine = xs.map some := by
  induction lines generalizing xs with
  | nil => cases xs <;> simp [assemble]
  | cons l ls ih =>
    have hcons : assemble (l :: ls) = some xs ↔
        ∃ y ys, xs = y :: ys ∧ assembleLine l = some y ∧ assemble ls = some ys := by
      cases hl : assembleLine l <;> cases hls : assemble ls <;> simp [assemble, hl, hls, eq_comm]
    rw [hcons]
    cases xs with
    | nil => simp
    | cons y ys => simp [ih]

/-- Settles O42: what is accepted is none or one statement, each written line reads as its statement, and a program is
assembled line by line; the two lines of the spec by evaluation. -/
theorem assemblerWritesItsOwnForm : Obligations.AssemblerWritesItsOwnForm := by
  unfold Obligations.AssemblerWritesItsOwnForm
  refine ⟨?form, fun a e c => assembleLine_rd c, fun a d c => assembleLine_wr c, ?cmd, fun p args c => assembleLine_pseudo c,
    assembleLine_commentText, assemble_iff, by decide, by decide⟩
  case form =>
    intro line x hx
    rcases assembleLine_instrs hx with hnone | ⟨m, args, hstatement⟩
    · simp [hnone]
    · exact statement?_wf hstatement
  case cmd =>
    intro a d c ha hd
    rw [assembleLine_wr c (by omega) hd, ha]
    rfl

end Sys2Proof.Machine
